-- ==== Sys2Proof/Word.lean ====
section
/-! DEFINITION. The word of the machine: an unbounded signed integer (00_scope.md R6, spec decision D1). -/

namespace Sys2Proof

/-- A memory cell, a parameter, an operand, an ALU result, an address or the instruction pointer: an unbounded
mathematical integer, with no width and no wrap-around (R6, D1). The definitions of the model write `Int` itself, so that
the decision procedures for integers read them as they stand; this is the spec's name for it. -/
abbrev Word := Int

end Sys2Proof
end

