-- ==== Sys2Proof/Config.lean ====
section
/-! DEFINITION. What is fixed for every engine: the entry point, the host's address conventions, the longest instruction
and the content of a cell that memory does not list. The spec leaves no value free, so there is no opaque constant here;
its launch arguments (the image, which fixes `N`, and the input port) are arguments of `Machine.State.resetWith`. -/

namespace Sys2Proof.Config

/-- Execution starts at address 0 (20_memory.md R30, 10_state.md R17). -/
def entryPoint : Int := 0

/-- The host's convention: the result of a run is the word at address 0 (R30, 70_reset_and_hazards.md R95). -/
def resultAddress : Int := 0

/-- The host's "noun" address, an index into its image (R30, R97). -/
def nounIndex : Nat := 1

/-- The host's "verb" address, an index into its image (R30, R97). -/
def verbIndex : Nat := 2

/-- The longest instruction has four words (00_scope.md R6, 30_encoding.md R43). -/
def maxLength : Nat := 4

/-- DESIGN CHOICE, safe (log 3): what a cell below `N` holds when the memory list does not list it. It is a matter of
representation only: every cell has the value its image or its last write gave it, and a cell that holds this value is
never listed. -/
abbrev unlisted : Int := 0

end Sys2Proof.Config
end

