-- ==== Sys2Proof/Syntax.lean ====
section
/-! DEFINITION. The instructions as syntax: the two addressing modes, a parameter with its mode, the nine opcodes, and
`Instr` with one constructor for each row of spec/opcode_table.json. -/

namespace Sys2Proof

/-- The addressing mode of a parameter (30_encoding.md R41): position (digit 0) or immediate (digit 1). No other mode
exists (20_memory.md R35). -/
inductive Mode where
  | position
  | immediate
  deriving DecidableEq, Repr

/-- A parameter of an instruction: its mode, a digit of the instruction word, and the whole parameter word
(30_encoding.md R42). -/
structure Param where
  mode : Mode
  word : Int
  deriving DecidableEq, Repr

/-- A position-mode parameter, written `[a]` (30_encoding.md R53). -/
def Param.pos (a : Int) : Param := ⟨.position, a⟩

/-- An immediate-mode parameter, written `#v` (30_encoding.md R53). -/
def Param.imm (v : Int) : Param := ⟨.immediate, v⟩

/-- The nine opcodes (30_encoding.md R43). -/
inductive Opcode where
  | add | mul | inp | out | jt | jf | lt | eq | hlt
  deriving DecidableEq, Repr

/-- The role of a parameter (30_encoding.md R43): a source operand, a write target or a jump target. -/
inductive Role where
  | source
  | writeTarget
  | jumpTarget
  deriving DecidableEq, Repr

/-- The parameters of an opcode with their roles, in order (the table of 30_encoding.md R43). -/
def Opcode.roles : Opcode → List Role
  | .add => [.source, .source, .writeTarget]
  | .mul => [.source, .source, .writeTarget]
  | .inp => [.writeTarget]
  | .out => [.source]
  | .jt  => [.source, .jumpTarget]
  | .jf  => [.source, .jumpTarget]
  | .lt  => [.source, .source, .writeTarget]
  | .eq  => [.source, .source, .writeTarget]
  | .hlt => []

/-- `Arity(op)`, the number of parameters (30_encoding.md R43). -/
def Opcode.arity (op : Opcode) : Nat := op.roles.length

/-- The length in words, `1 + Arity(op)` (30_encoding.md R43). -/
def Opcode.length (op : Opcode) : Nat := 1 + op.arity

/-- The opcode's number (30_encoding.md R43). -/
def Opcode.code : Opcode → Nat
  | .add => 1
  | .mul => 2
  | .inp => 3
  | .out => 4
  | .jt  => 5
  | .jf  => 6
  | .lt  => 7
  | .eq  => 8
  | .hlt => 99

/-- The instructions, one constructor for each row of spec/opcode_table.json, each with its parameters in order
(30_encoding.md R43). IN is `inp`, since `in` is a word of Lean. -/
inductive Instr where
  | add (a b dst : Param)
  | mul (a b dst : Param)
  | inp (dst : Param)
  | out (a : Param)
  | jt (a target : Param)
  | jf (a target : Param)
  | lt (a b dst : Param)
  | eq (a b dst : Param)
  | hlt
  deriving DecidableEq, Repr

/-- The opcode of an instruction. -/
def Instr.opcode : Instr → Opcode
  | .add _ _ _ => .add
  | .mul _ _ _ => .mul
  | .inp _ => .inp
  | .out _ => .out
  | .jt _ _ => .jt
  | .jf _ _ => .jf
  | .lt _ _ _ => .lt
  | .eq _ _ _ => .eq
  | .hlt => .hlt

/-- The parameters of an instruction, in the order of its parameter words. -/
def Instr.params : Instr → List Param
  | .add a b dst => [a, b, dst]
  | .mul a b dst => [a, b, dst]
  | .inp dst => [dst]
  | .out a => [a]
  | .jt a target => [a, target]
  | .jf a target => [a, target]
  | .lt a b dst => [a, b, dst]
  | .eq a b dst => [a, b, dst]
  | .hlt => []

end Sys2Proof
end

