-- ==== Sys2Proof/WellFormed.lean ====
section
/-! DEFINITION. The check on an instruction that its types do not make: a write target is in position mode. -/

namespace Sys2Proof

/-- A parameter may stand in a role: a write target must have mode 0 (20_memory.md R34, 30_encoding.md R43, R51); a
source operand or a jump target may have either mode. -/
def Param.fits (p : Param) : Role → Bool
  | .source => true
  | .writeTarget => decide (p.mode = .position)
  | .jumpTarget => true

/-- The instruction has an encoding (30_encoding.md R45): each parameter fits its role. The mode digits of absent
parameters and the digits above mode3 (R50) do not occur in `Instr` at all. -/
def Instr.wellFormed (i : Instr) : Bool :=
  (i.params.zip i.opcode.roles).all fun pr => pr.1.fits pr.2

end Sys2Proof
end

