-- ==== Sys2Proof/Decode.lean ====
section
/-! DEFINITION. Decoding an instruction word and its parameter words (30_encoding.md R40 to R52), the encoder (R53), and
the decoder read through the opcode table's numbering of bits (`decodeTableWord`). -/

namespace Sys2Proof

/-- Why a word is no instruction word: the three faults of `Decode` (30_encoding.md R46, R52). -/
inductive WordError where
  | invalidOpcode
  | invalidMode
  | invalidWriteMode
  deriving DecidableEq, Repr

/-- Why a list of words begins with no instruction: its first word is none, or the list ends inside the instruction (the
engine's Step raises AddressOutOfBounds for the missing word, 30_encoding.md R54). -/
inductive DecodeError where
  | badWord (e : WordError)
  | truncated
  deriving DecidableEq, Repr

/-- What an instruction word says: the opcode and the three parameter modes, position for a parameter that the
instruction does not have (30_encoding.md R46). -/
structure Header where
  op : Opcode
  mode1 : Mode
  mode2 : Mode
  mode3 : Mode
  deriving DecidableEq, Repr

/-- `digit(w, k)`, decimal digit `k` of a non-negative word (00_scope.md R7). -/
def digit (w k : Nat) : Nat := w / 10 ^ k % 10

/-- The opcode with this number, if there is one (30_encoding.md R43). -/
def Opcode.ofCode? : Nat → Option Opcode
  | 1 => some .add
  | 2 => some .mul
  | 3 => some .inp
  | 4 => some .out
  | 5 => some .jt
  | 6 => some .jf
  | 7 => some .lt
  | 8 => some .eq
  | 99 => some .hlt
  | _ => none

/-- The mode that a digit stands for, if it stands for one (30_encoding.md R41). -/
def Mode.ofDigit? : Nat → Option Mode
  | 0 => some .position
  | 1 => some .immediate
  | _ => none

/-- The mode's digit (30_encoding.md R41). -/
def Mode.digit : Mode → Nat
  | .position => 0
  | .immediate => 1

/-- The mode digit `d` of parameter `k`, for an instruction with `n` parameters: 0 or 1 for a parameter it has, 0 for
one it does not have (30_encoding.md R46, R50). -/
def paramMode? (n k d : Nat) : Option Mode :=
  if k ≤ n then Mode.ofDigit? d else if d = 0 then some .position else none

/-- The header gives immediate mode to a write target: parameter 3 of ADD, MUL, LT and EQ, parameter 1 of IN
(30_encoding.md R46, R51). -/
def Header.immediateTarget (h : Header) : Bool :=
  match h.op with
  | .add => decide (h.mode3 = .immediate)
  | .mul => decide (h.mode3 = .immediate)
  | .lt => decide (h.mode3 = .immediate)
  | .eq => decide (h.mode3 = .immediate)
  | .inp => decide (h.mode1 = .immediate)
  | .out => false
  | .jt => false
  | .jf => false
  | .hlt => false

/-- `Decode(w)`, with its checks in the order of 30_encoding.md R46. -/
def decodeWord (w : Int) : Except WordError Header :=
  if w < 0 then .error .invalidOpcode
  else
    match Opcode.ofCode? (w.toNat % 100) with
    | none => .error .invalidOpcode
    | some op =>
      if w.toNat / 100000 ≠ 0 then .error .invalidMode
      else
        match paramMode? op.arity 1 (digit w.toNat 2), paramMode? op.arity 2 (digit w.toNat 3),
            paramMode? op.arity 3 (digit w.toNat 4) with
        | some m1, some m2, some m3 =>
          if Header.immediateTarget ⟨op, m1, m2, m3⟩ then .error .invalidWriteMode
          else .ok ⟨op, m1, m2, m3⟩
        | _, _, _ => .error .invalidMode

/-- `P[k]`: parameter word `k`, counted from 1. The value for a missing word is never used: both callers give as many
words as the opcode has parameters. -/
def paramWord (ps : List Int) (k : Nat) : Int := ps.getD (k - 1) 0

/-- The instruction with this header and these parameter words (30_encoding.md R42, R43). -/
def Header.toInstr (h : Header) (ps : List Int) : Instr :=
  match h.op with
  | .add => .add ⟨h.mode1, paramWord ps 1⟩ ⟨h.mode2, paramWord ps 2⟩ ⟨h.mode3, paramWord ps 3⟩
  | .mul => .mul ⟨h.mode1, paramWord ps 1⟩ ⟨h.mode2, paramWord ps 2⟩ ⟨h.mode3, paramWord ps 3⟩
  | .inp => .inp ⟨h.mode1, paramWord ps 1⟩
  | .out => .out ⟨h.mode1, paramWord ps 1⟩
  | .jt => .jt ⟨h.mode1, paramWord ps 1⟩ ⟨h.mode2, paramWord ps 2⟩
  | .jf => .jf ⟨h.mode1, paramWord ps 1⟩ ⟨h.mode2, paramWord ps 2⟩
  | .lt => .lt ⟨h.mode1, paramWord ps 1⟩ ⟨h.mode2, paramWord ps 2⟩ ⟨h.mode3, paramWord ps 3⟩
  | .eq => .eq ⟨h.mode1, paramWord ps 1⟩ ⟨h.mode2, paramWord ps 2⟩ ⟨h.mode3, paramWord ps 3⟩
  | .hlt => .hlt

/-- The instruction at the head of a list of words, and the words after it (30_encoding.md R40, R44): the length is known
from the opcode alone. -/
def decode : List Int → Except DecodeError (Instr × List Int)
  | [] => .error .truncated
  | w :: ps =>
    match decodeWord w with
    | .error e => .error (.badWord e)
    | .ok h =>
      if ps.length < h.op.arity then .error .truncated
      else .ok (h.toInstr (ps.take h.op.arity), ps.drop h.op.arity)

/-- The mode digits of a list of parameters as a part of the instruction word: the first parameter's digit weighs
`weight`, each later one ten times more (30_encoding.md R53). -/
def modeDigits (weight : Nat) : List Param → Nat
  | [] => 0
  | p :: ps => weight * p.mode.digit + modeDigits (10 * weight) ps

/-- `word = opcode + 100*mode1 + 1000*mode2 + 10000*mode3` (30_encoding.md R53). -/
def encodeWord (i : Instr) : Int := ((i.opcode.code + modeDigits 100 i.params : Nat) : Int)

/-- The words of an instruction: the instruction word, then the parameter words in order (30_encoding.md R53). -/
def encode (i : Instr) : List Int := encodeWord i :: i.params.map Param.word

/-- The instruction that the decoder reads from an instruction whose bits are `w` in the opcode table's numbering. An
instruction word has no fixed width here, so the bits of `w` are those of the first word, read as a number (this is how
spec/98_reader.md made the table's bits), and every parameter word is 0 (log 7). -/
def decodeTableWord (_nbits w : Nat) : Option Instr :=
  match decode [(w : Int), 0, 0, 0] with
  | .ok (i, _) => some i
  | .error _ => none

end Sys2Proof
end

