-- ==== Sys2Proof/Machine/State.lean ====
section
/-! DEFINITION. The state of the engine (10_state.md R13), its fault record (60_exceptions.md R74, R75), and the state
after reset (R25). -/

namespace Sys2Proof.Machine

/-- The run status (10_state.md R19). -/
inductive Status where
  | running
  | halted
  | faulted
  deriving DecidableEq, Repr

/-- The five fault kinds of the engine (60_exceptions.md R74). Each is taken as the spec describes (R76), in a next
state; none is a host-level `Fault` (log 4). -/
inductive FaultKind where
  | invalidOpcode
  | addressOutOfBounds
  | invalidWriteMode
  | inputExhausted
  | invalidMode
  deriving DecidableEq, Repr

/-- The fault record `(kind, code, ip, word, addr)` (60_exceptions.md R75). The code is a function of the kind
(`FaultRecord.code`), so it is not stored a second time. -/
structure FaultRecord where
  kind : FaultKind
  ip : Int
  word : Option Int
  addr : Option Int
  deriving DecidableEq, Repr

/-- The memory cells as pairs of an address and a word, in canonical form: addresses strictly rising, and no pair whose
word is `Config.unlisted`, which is what an unlisted cell holds (`Memory.wf`; log 3). -/
abbrev Memory := List (Nat × Int)

/-- The architectural state, exactly the tuple of 10_state.md R13. -/
structure State where
  /-- `N`, the memory length in words (R15) -/
  N : Nat
  /-- `M`, the memory cells (R15) -/
  mem : Memory
  /-- the instruction pointer (R17) -/
  ip : Int
  /-- the run status (R19) -/
  status : Status
  /-- the fault record, or none (R20) -/
  fault : Option FaultRecord
  /-- `in_queue`, the input values that IN has not yet taken, head first (R22) -/
  inQueue : List Int
  /-- `in_closed`, true when the stream will supply no further value (R22) -/
  inClosed : Bool
  /-- `out_log`, the values delivered by OUT, in emission order (R23) -/
  outLog : List Int
  deriving DecidableEq, Repr

/-- The host-level fault of a step. It has NO constructor: no step of this machine stops with one. The five faults the
spec names are taken in a next state, whose `status` is FAULTED (60_exceptions.md R76; log 4). Safe: nothing raises it. -/
inductive Fault where
  deriving DecidableEq, Repr

/-- The host-level refusal of a step. -/
inductive Refusal where
  /-- Raised by an arm of `exec` whose instruction has no meaning yet; safe. No arm of this model uses it: every
  instruction has its meaning. -/
  | notModelled (mnemonic : String)
  deriving DecidableEq, Repr

/-- The one reset state of the interface: `Reset([], [], false)` of 70_reset_and_hazards.md R87, an empty image, no
initial input and an open input port. The image, the input and the closed flag are the host's launch arguments (10_state.md
R25, D20), so these three values are the model's DESIGN CHOICE (log 2, unsafe); `ip`, `status`, `fault` and `outLog` are
the spec's. `State.resetWith` is the reset for any arguments. -/
def State.reset : State where
  N := 0
  mem := []
  ip := Config.entryPoint
  status := .running
  fault := none
  inQueue := []
  inClosed := false
  outLog := []

end Sys2Proof.Machine
end

