-- ==== Sys2Proof/Machine/Ops.lean ====
section
/-! DEFINITION. The operations over memory, the instruction pointer and the ports that the pseudocode is written in
(00_scope.md R8, 20_memory.md R31, 41_io.md R60, R61), taking a fault (60_exceptions.md R75, R76), and how the attempt of
a Step ends. There is no return from a fault to model: it ends the run for good (60_exceptions.md R78). -/

namespace Sys2Proof.Machine

/-- The numeric value of the status (10_state.md R19, D19). -/
def Status.code : Status → Nat
  | .running => 0
  | .halted => 1
  | .faulted => 2

/-- The code of a fault kind (60_exceptions.md R74, D9). -/
def FaultKind.code : FaultKind → Nat
  | .invalidOpcode => 1
  | .addressOutOfBounds => 2
  | .invalidWriteMode => 3
  | .inputExhausted => 4
  | .invalidMode => 5

/-- The code field of a fault record (60_exceptions.md R75). -/
def FaultRecord.code (r : FaultRecord) : Nat := r.kind.code

/-- The record as the spec writes it, `(kind, code, ip, word, addr)` (60_exceptions.md R75). -/
def FaultRecord.fields (r : FaultRecord) : FaultKind × Nat × Int × Option Int × Option Int :=
  (r.kind, r.code, r.ip, r.word, r.addr)

/-! ### The memory list -/

/-- The word of cell `a`; an unlisted cell holds `Config.unlisted`. -/
def Memory.get : Memory → Nat → Int
  | [], _ => Config.unlisted
  | c :: m, a => if c.1 = a then c.2 else Memory.get m a

/-- The list without any pair for address `a`. -/
def Memory.erase : Memory → Nat → Memory
  | [], _ => []
  | c :: m, a => if c.1 = a then Memory.erase m a else c :: Memory.erase m a

/-- The list with the pair `(a, v)` put before the first higher address. -/
def Memory.insert : Memory → Nat → Int → Memory
  | [], a, v => [(a, v)]
  | c :: m, a, v => if a < c.1 then (a, v) :: c :: m else c :: Memory.insert m a v

/-- Memory with word `v` in cell `a`. The canonical form is kept: a cell that gets `Config.unlisted` is taken off the
list. -/
def Memory.set (m : Memory) (a : Nat) (v : Int) : Memory :=
  if v = Config.unlisted then Memory.erase m a else Memory.insert (Memory.erase m a) a v

/-- The canonical form, for a memory of `n` cells: addresses strictly rising, no pair that says what an unlisted cell
says, no address outside `[0, n)`. -/
def Memory.wf (n : Nat) : Memory → Bool
  | [] => true
  | c :: m => decide (c.1 < n) && decide (c.2 ≠ Config.unlisted) && m.all (fun d => decide (c.1 < d.1)) && Memory.wf n m

/-- The memory that holds the words of a list in the cells from `a` on. -/
def Memory.ofWordsFrom (a : Nat) : List Int → Memory
  | [] => []
  | w :: ws =>
    if w = Config.unlisted then Memory.ofWordsFrom (a + 1) ws else (a, w) :: Memory.ofWordsFrom (a + 1) ws

/-! ### How an attempt at a Step ends early -/

/-- Why an attempt at a Step does not complete: it raises a fault of a kind, with the address that an AddressOutOfBounds
records (60_exceptions.md R75), or it holds on the input port (41_io.md R60). -/
inductive Stop where
  | raise (kind : FaultKind) (addr : Option Int)
  | hold
  deriving DecidableEq, Repr

/-! ### Primitives over the state -/

/-- `a` names a cell: `0 <= a < N` (20_memory.md R26). -/
def State.inBounds (s : State) (a : Int) : Prop := 0 ≤ a ∧ a < (s.N : Int)
  deriving Decidable

/-- `M[a]`, for an address that names a cell. It stands only in the two primitives below and in the terms that claims
are written in (00_scope.md R8). -/
def State.cell (s : State) (a : Int) : Int := s.mem.get a.toNat

/-- `MemRead(a, 1)` (00_scope.md R8, 20_memory.md R31). -/
def State.memRead (s : State) (a : Int) : Except Stop Int :=
  if s.inBounds a then .ok (s.cell a) else .error (.raise .addressOutOfBounds (some a))

/-- `M[a] <- v`, for an address that names a cell. -/
def State.setCell (s : State) (a : Int) (v : Int) : State := { s with mem := s.mem.set a.toNat v }

/-- `MemWrite(a, 1, v)` (00_scope.md R8, 20_memory.md R31). -/
def State.memWrite (s : State) (a : Int) (v : Int) : Except Stop State :=
  if s.inBounds a then .ok (s.setCell a v) else .error (.raise .addressOutOfBounds (some a))

/-- The sequential advance of an instruction of `n` words: `ip <- ip + n` (10_state.md R17). -/
def State.advance (s : State) (n : Nat) : State := { s with ip := s.ip + (n : Int) }

/-- A taken jump: the target is checked and written to `ip` (42_jump.md R65, D7). -/
def State.jumpTo (s : State) (t : Int) : Except Stop State :=
  if s.inBounds t then .ok { s with ip := t } else .error (.raise .addressOutOfBounds (some t))

/-- `InPop()`: the head of the queue; InputExhausted when the port is empty and closed; a hold when it is empty and open
(41_io.md R60, C2). -/
def State.inPop (s : State) : Except Stop (Int × State) :=
  match s.inQueue with
  | v :: vs => .ok (v, { s with inQueue := vs })
  | [] => if s.inClosed then .error (.raise .inputExhausted none) else .error .hold

/-- `OutPush(v)` (41_io.md R61): the value is appended, and is delivered at once (D11). -/
def State.outPush (s : State) (v : Int) : State := { s with outLog := s.outLog ++ [v] }

/-- Taking a fault, from the state at the start of the Step (60_exceptions.md R75, R76): the record is written and the
status becomes FAULTED; nothing else changes. The recorded word is `M[ip]`, or none when `ip` names no cell, which is
exactly when the fault is the fetch of that word (log 6). -/
def State.takeFault (s : State) (kind : FaultKind) (addr : Option Int) : State :=
  { s with
    fault := some { kind := kind, ip := s.ip, word := if s.inBounds s.ip then some (s.cell s.ip) else none, addr := addr }
    status := .faulted }

/-- The end of a Step that began in state `s`: a completed attempt gives its state, a raise takes the fault from `s`
(00_scope.md R9: a faulting Step changes nothing else), and a hold leaves `s` as it is (41_io.md R60; log 5). -/
def State.finish (s : State) : Except Stop State → Host.Outcome State Fault Refusal
  | .ok t => .next t
  | .error (.raise kind addr) => .next (s.takeFault kind addr)
  | .error .hold => .next s

end Sys2Proof.Machine
end

