-- ==== Sys2Proof/Machine/Operands.lean ====
section
/-! DEFINITION. Operand resolution, for every operand form there is: position and immediate sources, and write targets
(20_memory.md R33, R34, R35). -/

namespace Sys2Proof.Machine

/-- `Read(k, m)`: the effective value of a parameter (20_memory.md R33). An immediate is used as it stands, whatever its
value. -/
def State.read (s : State) (p : Param) : Except Stop Int :=
  match p.mode with
  | .position => s.memRead p.word
  | .immediate => .ok p.word

/-- `WriteTarget(k)`: the address that a write-target parameter names (20_memory.md R34). The raw word is the address; it
is not dereferenced. Immediate mode is the source's InvalidWriteMode of its Write primitive; decode has refused it already
(30_encoding.md R51), so no Step reaches that arm (C3; log 12). -/
def State.writeTarget (s : State) (p : Param) : Except Stop Int :=
  match p.mode with
  | .immediate => .error (.raise .invalidWriteMode none)
  | .position => if s.inBounds p.word then .ok p.word else .error (.raise .addressOutOfBounds (some p.word))

end Sys2Proof.Machine
end

