-- ==== Sys2Proof/Machine/Arithmetic.lean ====
section
/-! DEFINITION. The arithmetic instructions ADD and MUL (40_arithmetic.md), and the shape they share with the comparisons:
two sources, an exact operation, one write target. -/

namespace Sys2Proof.Machine

/-- An instruction of the form `dst <- f a b` with next IP `ip + 4`: the operands are read in parameter order, then the
write target is checked, then the effects happen (40_arithmetic.md R57; 30_encoding.md R54; 20_memory.md R36). -/
def attemptBinary (f : Int → Int → Int) (a b dst : Param) (s : State) : Except Stop State := do
  let x ← s.read a
  let y ← s.read b
  let d ← s.writeTarget dst
  let t ← s.memWrite d (f x y)
  return t.advance 4

/-- The exact sum (40_arithmetic.md R56). -/
def addWord (a b : Int) : Int := a + b

/-- The exact product (40_arithmetic.md R56). -/
def mulWord (a b : Int) : Int := a * b

/-- ADD (40_arithmetic.md R57): `dst <- a + b`, next IP `ip + 4`. -/
def execAdd (a b dst : Param) (s : State) : Host.Outcome State Fault Refusal :=
  s.finish (attemptBinary addWord a b dst s)

/-- MUL (40_arithmetic.md R58): `dst <- a * b`, next IP `ip + 4`. -/
def execMul (a b dst : Param) (s : State) : Host.Outcome State Fault Refusal :=
  s.finish (attemptBinary mulWord a b dst s)

end Sys2Proof.Machine
end

