-- ==== Sys2Proof/Machine/Flags.lean ====
section
/-! DEFINITION. The machine has no flags and no condition codes (10_state.md R21). What a flag would hold elsewhere, the
outcome of a comparison, is the word 1 or 0 (43_compare.md R69), computed here; and the two conditions a jump tests
(42_jump.md R67, R68). -/

namespace Sys2Proof.Machine

/-- The word that stands for a truth value (43_compare.md R69). -/
def boolWord (b : Bool) : Int := if b then 1 else 0

/-- Signed less-than over the integers (43_compare.md R69, R70). -/
def ltWord (a b : Int) : Int := boolWord (decide (a < b))

/-- Equality over the integers (43_compare.md R69, R71). -/
def eqWord (a b : Int) : Int := boolWord (decide (a = b))

/-- The condition of JT: any value but 0 (42_jump.md R67). -/
def isNonzero (a : Int) : Bool := decide (a ≠ 0)

/-- The condition of JF: exactly 0 (42_jump.md R68). -/
def isZero (a : Int) : Bool := decide (a = 0)

end Sys2Proof.Machine
end

