-- ==== Sys2Proof/Machine/Compare.lean ====
section
/-! DEFINITION. The comparisons LT and EQ (43_compare.md). -/

namespace Sys2Proof.Machine

/-- LT (43_compare.md R70): `dst <- 1 if a < b else 0`, next IP `ip + 4`. -/
def execLt (a b dst : Param) (s : State) : Host.Outcome State Fault Refusal :=
  s.finish (attemptBinary ltWord a b dst s)

/-- EQ (43_compare.md R71): `dst <- 1 if a = b else 0`, next IP `ip + 4`. -/
def execEq (a b dst : Param) (s : State) : Host.Outcome State Fault Refusal :=
  s.finish (attemptBinary eqWord a b dst s)

end Sys2Proof.Machine
end

