-- ==== Sys2Proof/Machine/Halt.lean ====
section
/-! DEFINITION. The halt instruction HLT (44_halt.md). -/

namespace Sys2Proof.Machine

/-- HLT (44_halt.md R72): the status becomes HALTED and `ip` keeps the address of the HLT word (D12). -/
def execHlt (s : State) : Host.Outcome State Fault Refusal :=
  s.finish (.ok { s with status := .halted })

end Sys2Proof.Machine
end

