-- ==== Sys2Proof/Machine/InOut.lean ====
section
/-! DEFINITION. The port instructions IN and OUT (41_io.md). -/

namespace Sys2Proof.Machine

/-- The attempt of IN (41_io.md R63): the write target is checked before the input port (D6), and a value is taken only by
a Step that completes. -/
def attemptIn (dst : Param) (s : State) : Except Stop State := do
  let d ← s.writeTarget dst
  let (v, s1) ← s.inPop
  let t ← s1.memWrite d v
  return t.advance 2

/-- The attempt of OUT (41_io.md R64). -/
def attemptOut (a : Param) (s : State) : Except Stop State := do
  let x ← s.read a
  return (s.outPush x).advance 2

/-- IN (41_io.md R63): `dst <-` the next input value, next IP `ip + 2`; on an empty and open port the Step holds. -/
def execIn (dst : Param) (s : State) : Host.Outcome State Fault Refusal :=
  s.finish (attemptIn dst s)

/-- OUT (41_io.md R64): emit `a`, next IP `ip + 2`. -/
def execOut (a : Param) (s : State) : Host.Outcome State Fault Refusal :=
  s.finish (attemptOut a s)

end Sys2Proof.Machine
end

