-- ==== Sys2Proof/Machine/Jump.lean ====
section
/-! DEFINITION. The conditional jumps JT and JF (42_jump.md). -/

namespace Sys2Proof.Machine

/-- A conditional jump: both parameters are read, with their modes, before the condition is tested (42_jump.md R65, R67;
D6); a taken jump uses the target's value as the new `ip`, after checking it (D7). -/
def attemptJump (taken : Int → Bool) (a target : Param) (s : State) : Except Stop State := do
  let x ← s.read a
  let t ← s.read target
  if taken x then s.jumpTo t else return s.advance 3

/-- JT (42_jump.md R67): next IP is the target if `a ≠ 0`, else `ip + 3`. -/
def execJt (a target : Param) (s : State) : Host.Outcome State Fault Refusal :=
  s.finish (attemptJump isNonzero a target s)

/-- JF (42_jump.md R68): next IP is the target if `a = 0`, else `ip + 3`. -/
def execJf (a target : Param) (s : State) : Host.Outcome State Fault Refusal :=
  s.finish (attemptJump isZero a target s)

end Sys2Proof.Machine
end

