-- ==== Sys2Proof/Machine/Dispatch.lean ====
section
/-! DEFINITION. `Execute(op, m, P)` (30_encoding.md R55): one arm for each opcode, each a call of its meaning. -/

namespace Sys2Proof.Machine

-- The status is tested by the Step, not here (30_encoding.md R54; log 13).
def exec (i : Instr) (s : State) : Host.Outcome State Fault Refusal :=
  match i with
  | .add a b dst => Sys2Proof.Machine.execAdd a b dst s
  | .mul a b dst => Sys2Proof.Machine.execMul a b dst s
  | .inp dst => Sys2Proof.Machine.execIn dst s
  | .out a => Sys2Proof.Machine.execOut a s
  | .jt a target => Sys2Proof.Machine.execJt a target s
  | .jf a target => Sys2Proof.Machine.execJf a target s
  | .lt a b dst => Sys2Proof.Machine.execLt a b dst s
  | .eq a b dst => Sys2Proof.Machine.execEq a b dst s
  | .hlt => Sys2Proof.Machine.execHlt s

end Sys2Proof.Machine
end

