-- ==== Sys2Proof/Machine/Fetch.lean ====
section
/-! DEFINITION. The fetch and decode part of a Step (30_encoding.md R54, steps 1 to 3), and placing an instruction where
the next Step fetches it. -/

namespace Sys2Proof.Machine

/-- The fault kind that a word error raises (30_encoding.md R46). -/
def kindOfWordError : WordError → FaultKind
  | .invalidOpcode => .invalidOpcode
  | .invalidMode => .invalidMode
  | .invalidWriteMode => .invalidWriteMode

/-- `Decode(w)` as a part of a Step: a word that fails raises its fault, which records no address (30_encoding.md R46,
60_exceptions.md R74). -/
def decodeOrRaise (w : Int) : Except Stop Header :=
  match decodeWord w with
  | .ok h => .ok h
  | .error e => .error (.raise (kindOfWordError e) none)

/-- The parameter words from address `a` on, `n` of them in ascending order (30_encoding.md R54, step 3). -/
def State.fetchParams (s : State) (a : Int) : Nat → Except Stop (List Int)
  | 0 => .ok []
  | n + 1 => do
    let p ← s.memRead a
    let ps ← s.fetchParams (a + 1) n
    return p :: ps

/-- Steps 1 to 3 of a Step: fetch the instruction word, decode it, fetch its parameter words (30_encoding.md R54). -/
def State.fetch (s : State) : Except Stop Instr := do
  let w ← s.memRead s.ip
  let h ← decodeOrRaise w
  let ps ← s.fetchParams (s.ip + 1) h.op.arity
  return h.toInstr ps

/-- Memory with the words of a list written to the cells from `a` on. -/
def Memory.setWords (m : Memory) (a : Nat) : List Int → Memory
  | [] => m
  | w :: ws => Memory.setWords (m.set a w) (a + 1) ws

/-- The state with these words stored where the next Step fetches, and ready to run them: the words stand at `ip` (at the
entry point should `ip` be negative, which no run reaches), the memory reaches over them, and the engine is RUNNING with no
fault (log 1). This stands for the host's load of a program; the engine itself loads none. -/
def State.withWords (s : State) (ws : List Int) : State :=
  { s with
    N := max s.N (s.ip.toNat + ws.length)
    mem := s.mem.setWords s.ip.toNat ws
    ip := (s.ip.toNat : Int)
    status := .running
    fault := none }

end Sys2Proof.Machine
end

