-- ==== Sys2Proof/Machine/Step.lean ====
section
/-! DEFINITION. The Step of the engine (30_encoding.md R54), and the word the host places for it. -/

namespace Sys2Proof.Machine

/-- One Step: nothing unless RUNNING (70_reset_and_hazards.md R91); else fetch, decode, parameter fetch and Execute, the
first check to fail being the fault that is taken (30_encoding.md R54). -/
def step (s : State) : Host.Outcome State Fault Refusal :=
  match s.status with
  | .halted => .next s
  | .faulted => .next s
  | .running =>
    match s.fetch with
    | .error e => s.finish (.error e)
    | .ok i => exec i s

/-- The state with the instruction whose bits are `w` (`decodeTableWord`'s numbering; parameter words of zeros) stored
where the next Step fetches it (log 1, log 7). -/
def State.withFetchWord (s : State) (_nbits w : Nat) : State := s.withWords [(w : Int), 0, 0, 0]

end Sys2Proof.Machine
end

