-- ==== Sys2Proof/Machine/Assembler.lean ====
section
/-! DEFINITION. The assembler syntax that the spec writes its programs in (30_encoding.md R53, spec decision D15). It is
notation: nothing in the engine executes it. -/

namespace Sys2Proof.Machine

/-- A number or the name of a label; a label stands for the address of the word after it (R53). -/
inductive AsmValue where
  | num (v : Int)
  | label (name : String)
  deriving DecidableEq, Repr

/-- An operand: `[a]`, position mode, or `#v`, immediate mode (R53). -/
inductive AsmOperand where
  | pos (a : AsmValue)
  | imm (v : AsmValue)
  deriving DecidableEq, Repr

/-- A line: a `label:` prefix, an instruction with its operands, or `DATA` with its words (R53). -/
inductive AsmLine where
  | label (name : String)
  | instr (op : Opcode) (operands : List AsmOperand)
  | data (values : List AsmValue)
  deriving DecidableEq, Repr

/-- Why a program text is refused (log 14). -/
inductive AsmError where
  | unknownLabel (name : String)
  | duplicateLabel (name : String)
  | wrongOperandCount (op : Opcode)
  | immediateWriteTarget (op : Opcode)
  deriving DecidableEq, Repr

/-- How many words a line emits. -/
def AsmLine.size : AsmLine → Nat
  | .label _ => 0
  | .instr op _ => op.length
  | .data vs => vs.length

/-- The labels of a program with their addresses, when its first word stands at `at_`; a label given twice is refused
(log 14). -/
def asmLabels : Nat → List AsmLine → Except AsmError (List (String × Nat))
  | _, [] => .ok []
  | at_, l :: ls => do
    let rest ← asmLabels (at_ + l.size) ls
    match l with
    | .label name => if rest.any (fun p => p.1 = name) then .error (.duplicateLabel name) else .ok ((name, at_) :: rest)
    | .instr _ _ => .ok rest
    | .data _ => .ok rest

/-- The word that a value stands for. -/
def AsmValue.resolve (labels : List (String × Nat)) : AsmValue → Except AsmError Int
  | .num v => .ok v
  | .label name =>
    match labels.find? (fun p => p.1 = name) with
    | some p => .ok (p.2 : Int)
    | none => .error (.unknownLabel name)

/-- The parameter that an operand encodes: mode 0 or 1, and the parameter word (R53). -/
def AsmOperand.resolve (labels : List (String × Nat)) : AsmOperand → Except AsmError Param
  | .pos a => do return Param.pos (← a.resolve labels)
  | .imm v => do return Param.imm (← v.resolve labels)

/-- The words of a line: for an instruction `opcode + 100*mode1 + 1000*mode2 + 10000*mode3` and then its parameter words
(R53). A write target is always written `[a]`. -/
def AsmLine.emit (labels : List (String × Nat)) : AsmLine → Except AsmError (List Int)
  | .label _ => .ok []
  | .data vs => vs.mapM (AsmValue.resolve labels)
  | .instr op operands =>
    if operands.length ≠ op.arity then .error (.wrongOperandCount op)
    else do
      let ps ← operands.mapM (AsmOperand.resolve labels)
      if (ps.zip op.roles).all (fun pr => pr.1.fits pr.2) then
        return ((op.code + modeDigits 100 ps : Nat) : Int) :: ps.map Param.word
      else .error (.immediateWriteTarget op)

/-- The memory image of a program text. -/
def assemble (lines : List AsmLine) : Except AsmError (List Int) := do
  let labels ← asmLabels 0 lines
  let words ← lines.mapM (AsmLine.emit labels)
  return words.flatten

end Sys2Proof.Machine
end

