-- ==== Sys2Proof/Machine/Interface.lean ====
section
/-! DEFINITION. The host's side of the engine (70_reset_and_hazards.md R87 to R98, 41_io.md R62): reset with its
arguments, the report of a Step, Run, the input port between Steps, reading back, and the patch-and-replay protocol. -/

namespace Sys2Proof.Machine

/-! ### Reset -/

/-- `Reset(image, in_init, closed_init)` (R87). It may be applied in any state and discards the old state entirely, so it
takes none. -/
def State.resetWith (image inInit : List Int) (closedInit : Bool) : State where
  N := image.length
  mem := Memory.ofWordsFrom 0 image
  ip := Config.entryPoint
  status := .running
  fault := none
  inQueue := inInit
  inClosed := closedInit
  outLog := []

/-! ### Step and its report -/

/-- The next state of a Step. A Step always has one (`step_total`), so the two other arms are never reached. -/
def State.stepNext (s : State) : State :=
  match step s with
  | .next t => t
  | .fault _ => s
  | .refused _ => s

/-- The instruction at `ip` decodes to opcode 3 and passes every check before the input check (10_state.md R24). -/
def State.atReadyIn (s : State) : Bool :=
  match s.fetch with
  | .ok (.inp dst) =>
    match s.writeTarget dst with
    | .ok _ => true
    | .error _ => false
  | _ => false

/-- `in_wait`, the derived signal that the engine holds (10_state.md R24). -/
def State.inWait (s : State) : Bool :=
  decide (s.status = .running) && s.atReadyIn && s.inQueue.isEmpty && !s.inClosed

/-- The four outcomes of a Step (R89). -/
inductive StepReport where
  | stepped
  | held
  | halted
  | faulted (record : Option FaultRecord)
  deriving DecidableEq, Repr

/-- What a state that is reached reports: its status, with the fault record (R89, R91). -/
def State.statusReport (s : State) : StepReport :=
  match s.status with
  | .running => .stepped
  | .halted => .halted
  | .faulted => .faulted s.fault

/-- What a Step from this state reports (R89): `Held` while `in_wait` is true, else by the status after the Step. -/
def State.stepReport (s : State) : StepReport :=
  if s.inWait then .held else s.stepNext.statusReport

/-! ### Run -/

/-- How a bounded Run ends: the run has ended (R92), the engine waits for the host's input action, or the fuel is used up,
which is no state of the engine (R90; log 9). -/
inductive RunResult where
  | ended (s : State)
  | waiting (s : State)
  | outOfFuel (s : State)
  deriving DecidableEq, Repr

/-- `Run` (R90): Step again and again until `status` is HALTED or FAULTED, with at most `fuel` Steps. It stops at a hold,
where the host must act before it runs on. -/
def run : Nat → State → RunResult
  | 0, s => if s.status = .running then .outOfFuel s else .ended s
  | fuel + 1, s =>
    if s.status ≠ .running then .ended s
    else if s.inWait then .waiting s
    else run fuel s.stepNext

/-! ### The host's actions -/

/-- Why the engine refuses a host's action. It is the host's error, changes no state of the engine, and is none of the
engine's faults (41_io.md R62; R95; R97, D18). -/
inductive HostError where
  | portClosed
  | stillRunning
  | addressOutOfMemory
  | imageTooShort
  deriving DecidableEq, Repr

/-- The host appends one value to the tail of the input queue, while the port is open (41_io.md R62(a)). -/
def State.hostAppend (s : State) (v : Int) : Except HostError State :=
  if s.inClosed then .error .portClosed else .ok { s with inQueue := s.inQueue ++ [v] }

/-- The host closes the input port, while it is open (41_io.md R62(b)). -/
def State.hostClose (s : State) : Except HostError State :=
  if s.inClosed then .error .portClosed else .ok { s with inClosed := true }

/-- The host takes output: the values of `out_log` in emission order (R94; 10_state.md R23). The log itself stays
(log 8). -/
def State.takeOutput (s : State) : List Int := s.outLog

/-- `ReadBack(a)` (R95): `M[a]`, only when the run has ended and the address names a cell. -/
def State.readBack (s : State) (a : Int) : Except HostError Int :=
  if s.status = .running then .error .stillRunning
  else if s.inBounds a then .ok (s.cell a) else .error .addressOutOfMemory

/-- What happens in a run, in order: a Step, or an action of the host between Steps (41_io.md R62, R94). -/
inductive HostEvent where
  | step
  | append (v : Int)
  | close
  deriving DecidableEq, Repr

/-- One event; a host's action the port does not allow is an error. -/
def State.applyEvent (s : State) : HostEvent → Except HostError State
  | .step => .ok s.stepNext
  | .append v => s.hostAppend v
  | .close => s.hostClose

/-- A run as a sequence of events. -/
def runEvents : List HostEvent → State → Except HostError State
  | [], s => .ok s
  | e :: es, s =>
    match s.applyEvent e with
    | .ok t => runEvents es t
    | .error err => .error err

/-- The values that the host appends in a sequence of events, in order. -/
def suppliedValues : List HostEvent → List Int
  | [] => []
  | .append v :: es => v :: suppliedValues es
  | .step :: es => suppliedValues es
  | .close :: es => suppliedValues es

/-- The host closes the port in this sequence of events. -/
def closesPort : List HostEvent → Bool
  | [] => false
  | .close :: _ => true
  | .step :: es => closesPort es
  | .append _ :: es => closesPort es

/-! ### Patch and replay, and the search at its boundary -/

/-- The host's patch of a fresh copy of its reference program: address 1 gets the noun, address 2 the verb; a program of
fewer than 3 words is a host-side error (R97, D18). -/
def patch (program : List Int) (noun verb : Int) : Except HostError (List Int) :=
  if program.length < 3 then .error .imageTooShort
  else .ok ((program.set Config.nounIndex noun).set Config.verbIndex verb)

/-- What one replay gives the host (R97). -/
inductive ReplayResult where
  | output (v : Int)
  | faulted (record : Option FaultRecord)
  | waiting
  | outOfFuel
  | hostError (e : HostError)
  deriving DecidableEq, Repr

/-- What the host reads of an ended run: `Memory[0]` after a halt, the fault record after a fault (R95, R97). -/
def State.replayResult (s : State) : ReplayResult :=
  if s.status = .faulted then .faulted s.fault
  else
    match s.readBack Config.resultAddress with
    | .ok v => .output v
    | .error e => .hostError e

/-- One candidate of the patch-and-replay protocol (R97): patch a copy, reset with it, run to the end, read address 0. The
input values and the closed flag are Reset's; the fuel is the model's (R90). -/
def replay (fuel : Nat) (program inInit : List Int) (closedInit : Bool) (noun verb : Int) : ReplayResult :=
  match patch program noun verb with
  | .error e => .hostError e
  | .ok image =>
    match run fuel (State.resetWith image inInit closedInit) with
    | .ended s => s.replayResult
    | .waiting _ => .waiting
    | .outOfFuel _ => .outOfFuel

/-- The pairs of `[0, bound] × [0, bound]` in row-major order, noun outer and verb inner (R98). -/
def candidatePairs (bound : Nat) : List (Nat × Nat) :=
  (List.range (bound + 1)).flatMap fun noun => (List.range (bound + 1)).map fun verb => (noun, verb)

/-- How the search ends (R98): the first matching pair with its report `100*noun + verb`, no match, or a candidate whose
run the driver cannot pass over. -/
inductive SearchResult where
  | found (noun verb report : Nat)
  | noMatch
  | stopped (noun verb : Nat) (result : ReplayResult)
  deriving DecidableEq, Repr

/-- The search over a list of pairs (R98). `benign` is the driver's policy: a fault it calls benign only disqualifies the
pair; any other is propagated. A candidate that does not end also stops the search (log 10). -/
def searchPairs (replayOf : Nat → Nat → ReplayResult) (target : Int) (benign : Option FaultRecord → Bool) :
    List (Nat × Nat) → SearchResult
  | [] => .noMatch
  | p :: ps =>
    match replayOf p.1 p.2 with
    | .output v =>
      if v = target then .found p.1 p.2 (100 * p.1 + p.2) else searchPairs replayOf target benign ps
    | .faulted r =>
      if benign r then searchPairs replayOf target benign ps else .stopped p.1 p.2 (.faulted r)
    | .waiting => .stopped p.1 p.2 .waiting
    | .outOfFuel => .stopped p.1 p.2 .outOfFuel
    | .hostError e => .stopped p.1 p.2 (.hostError e)

/-- The search driver at its boundary (R98). -/
def search (fuel : Nat) (program inInit : List Int) (closedInit : Bool) (bound : Nat) (target : Int)
    (benign : Option FaultRecord → Bool) : SearchResult :=
  searchPairs (fun noun verb => replay fuel program inInit closedInit (noun : Int) (verb : Int)) target benign
    (candidatePairs bound)

end Sys2Proof.Machine
end

