-- ==== Sys2Proof/Safety.lean ====
section
/-! DEFINITION. The terms that claims about the engine are written in: when a parameter can be read or written and what
its value is, words that stand in memory, how a run has ended, and the invariant of the state. -/

namespace Sys2Proof.Machine

/-! ### Operands -/

/-- The parameter can be read: an immediate always, a position when its word names a cell (20_memory.md R33). -/
def State.readable (s : State) (p : Param) : Prop := p.mode = .position → s.inBounds p.word
  deriving Decidable

/-- The effective value of a parameter that can be read (20_memory.md R33). -/
def State.value (s : State) (p : Param) : Int :=
  match p.mode with
  | .position => s.cell p.word
  | .immediate => p.word

/-- The parameter can be written to: it is in position mode and its word names a cell (20_memory.md R34). -/
def State.writable (s : State) (p : Param) : Prop := p.mode = .position ∧ s.inBounds p.word
  deriving Decidable

/-! ### Words in memory -/

/-- The words of a list stand in memory from address `a` on. -/
def State.holdsAt (s : State) (a : Int) : List Int → Prop
  | [] => True
  | w :: ws => s.memRead a = .ok w ∧ s.holdsAt (a + 1) ws

/-- State `t` is state `s` after an instruction of `n` words whose one effect is to store `v` at address `d`: `d` reads as
`v`, every other address reads as before, and nothing else but `ip` has changed. -/
def State.afterStore (s t : State) (d v : Int) (n : Nat) : Prop :=
  t.memRead d = .ok v ∧ (∀ c, c ≠ d → t.memRead c = s.memRead c) ∧ t = { s with mem := t.mem, ip := s.ip + (n : Int) }

/-! ### How a run has ended -/

/-- The run has ended (70_reset_and_hazards.md R92). -/
def State.ended (s : State) : Prop := s.status ≠ .running
  deriving Decidable

/-- The run has ended cleanly (R92; 44_halt.md R72). -/
def State.endedCleanly (s : State) : Prop := s.status = .halted
  deriving Decidable

/-- Two states show the host the same run: the fields that 70_reset_and_hazards.md R99 names. -/
def State.sameRun (s t : State) : Prop :=
  s.status = t.status ∧ s.fault = t.fault ∧ s.N = t.N ∧ s.mem = t.mem ∧ s.ip = t.ip ∧ s.outLog = t.outLog
  deriving Decidable

/-! ### The invariant -/

/-- The fault record tells of this state (60_exceptions.md R75): the faulting Step's `ip`, the word there or none, and for
AddressOutOfBounds an address outside `[0, N)`, for the other kinds none. -/
structure FaultRecord.tellsOf (r : FaultRecord) (s : State) : Prop where
  ip_eq : r.ip = s.ip
  word_eq : r.word = if s.inBounds s.ip then some (s.cell s.ip) else none
  addr_out : r.kind = .addressOutOfBounds → ∃ a, r.addr = some a ∧ ¬ s.inBounds a
  addr_none : r.kind ≠ .addressOutOfBounds → r.addr = none

/-- The invariant of the engine's states. -/
structure State.Inv (s : State) : Prop where
  /-- memory is in canonical form, within `[0, N)` (20_memory.md R26, R31) -/
  memory : Memory.wf s.N s.mem = true
  /-- `ip` is never negative (10_state.md R18) -/
  ip_nonneg : 0 ≤ s.ip
  /-- the fault record is set exactly when the status is FAULTED (10_state.md R20) -/
  fault_iff : s.fault.isSome = true ↔ s.status = .faulted
  /-- the fault record tells of the state the fault left (60_exceptions.md R75, R76) -/
  record : ∀ r, s.fault = some r → r.tellsOf s
  /-- after a halt `ip` names a cell that holds the HLT word (44_halt.md R72) -/
  halt_word : s.status = .halted → s.memRead s.ip = .ok 99

end Sys2Proof.Machine
end

