-- ==== Sys2Proof/Certificates/Slice0/Obligations.lean ====
section
/-! DEFINITION. The statements for the provers. Each docstring names the rule it rests on; a statement with basis
'derived' in OBLIGATIONS.json rests on an inference the spec marks as its own, on a part of a rule, or on a choice of the
model that the docstring names. -/

open Sys2Proof Sys2Proof.Machine

/-! ### Shared shapes of the statements -/

/-- The legal words of an opcode, as spec/opcode_table.json and 30_encoding.md R45 list them. -/
def Sys2Proof.tableWords : Opcode → List Int
  | .add => [1, 101, 1001, 1101]
  | .mul => [2, 102, 1002, 1102]
  | .inp => [3]
  | .out => [4, 104]
  | .jt => [5, 105, 1005, 1105]
  | .jf => [6, 106, 1006, 1106]
  | .lt => [7, 107, 1007, 1107]
  | .eq => [8, 108, 1008, 1108]
  | .hlt => [99]

/-- The words that decode to this opcode are exactly these. -/
def Sys2Proof.decodesExactly (op : Opcode) (ws : List Int) : Prop :=
  ∀ w : Int, (∃ h, decodeWord w = .ok h ∧ h.op = op) ↔ w ∈ ws

/-- The Step's own checks come first (30_encoding.md R54): at a word of this opcode a running engine takes
AddressOutOfBounds for the first parameter word that memory does not have; with all of them there, the Step is `exec` of
the instruction they make. -/
def Sys2Proof.Machine.ownChecksFirst (op : Opcode) : Prop :=
  ∀ (s : State) (w : Int) (h : Header), s.status = .running → s.memRead s.ip = .ok w → decodeWord w = .ok h →
    h.op = op →
      (∀ k : Nat, k < op.arity → (∀ j : Nat, j < k → s.inBounds (s.ip + 1 + j)) → ¬ s.inBounds (s.ip + 1 + k) →
        step s = .next (s.takeFault .addressOutOfBounds (some (s.ip + 1 + k)))) ∧
      (∀ ps : List Int, ps.length = op.arity → s.holdsAt (s.ip + 1) ps → step s = exec (h.toInstr ps) s)

/-- The rule of an instruction `dst <- f a b` (the template of 40_arithmetic.md R57): its words; which parameter word and
which mode digit each operand is; immediate mode for dst refused at decode; the Step's own checks before its own; its
result, with everything else unchanged, when `a` and `b` can be read and dst names a cell; and its exceptions, in order.
(That the integers are unbounded and that the checks have this order are the spec's decisions D1, D5, D6.) -/
def Sys2Proof.Machine.binaryRule (op : Opcode) (mk : Param → Param → Param → Instr) (ws : List Int)
    (f : Int → Int → Int) : Prop :=
  decodesExactly op ws ∧
  (∀ (m1 m2 : Mode) (p1 p2 p3 : Int) (rest : List Int),
    decode (((op.code + 100 * m1.digit + 1000 * m2.digit : Nat) : Int) :: p1 :: p2 :: p3 :: rest) =
      .ok (mk ⟨m1, p1⟩ ⟨m2, p2⟩ ⟨.position, p3⟩, rest)) ∧
  (∀ m1 m2 : Mode, decodeWord ((10000 + op.code + 100 * m1.digit + 1000 * m2.digit : Nat) : Int) =
    .error .invalidWriteMode) ∧
  ownChecksFirst op ∧
  ∀ (a b dst : Param) (s : State), dst.mode = .position →
    (s.readable a → s.readable b → s.inBounds dst.word →
      ∃ t, exec (mk a b dst) s = .next t ∧ s.afterStore t dst.word (f (s.value a) (s.value b)) 4) ∧
    (¬ s.readable a → exec (mk a b dst) s = .next (s.takeFault .addressOutOfBounds (some a.word))) ∧
    (s.readable a → ¬ s.readable b →
      exec (mk a b dst) s = .next (s.takeFault .addressOutOfBounds (some b.word))) ∧
    (s.readable a → s.readable b → ¬ s.inBounds dst.word →
      exec (mk a b dst) s = .next (s.takeFault .addressOutOfBounds (some dst.word)))

/-- The rule of a conditional jump (42_jump.md R67, R68): its words; which parameter word and which mode digit each
operand is; the Step's own checks before its own; where it goes, with nothing but `ip` changed; and its exceptions, in
order. (That both operands are read before the test, and that only a taken jump checks its target, are the spec's decisions
D6 and D7.) -/
def Sys2Proof.Machine.jumpRule (op : Opcode) (mk : Param → Param → Instr) (ws : List Int)
    (taken : Int → Prop) : Prop :=
  decodesExactly op ws ∧
  (∀ (m1 m2 : Mode) (p1 p2 : Int) (rest : List Int),
    decode (((op.code + 100 * m1.digit + 1000 * m2.digit : Nat) : Int) :: p1 :: p2 :: rest) =
      .ok (mk ⟨m1, p1⟩ ⟨m2, p2⟩, rest)) ∧
  ownChecksFirst op ∧
  ∀ (a target : Param) (s : State),
    (s.readable a → s.readable target → taken (s.value a) → s.inBounds (s.value target) →
      exec (mk a target) s = .next { s with ip := s.value target }) ∧
    (s.readable a → s.readable target → ¬ taken (s.value a) →
      exec (mk a target) s = .next { s with ip := s.ip + 3 }) ∧
    (¬ s.readable a → exec (mk a target) s = .next (s.takeFault .addressOutOfBounds (some a.word))) ∧
    (s.readable a → ¬ s.readable target →
      exec (mk a target) s = .next (s.takeFault .addressOutOfBounds (some target.word))) ∧
    (s.readable a → s.readable target → taken (s.value a) → ¬ s.inBounds (s.value target) →
      exec (mk a target) s = .next (s.takeFault .addressOutOfBounds (some (s.value target))))

/-- The running engine at a word takes this fault, and nothing but `fault` and `status` changes. -/
def Sys2Proof.Machine.wordRaises (w : Int) (kind : FaultKind) : Prop :=
  ∀ s : State, s.status = .running → s.memRead s.ip = .ok w →
    step s = .next { s with
      status := .faulted, fault := some { kind := kind, ip := s.ip, word := some w, addr := none } }

/-! ### Encoding and decoding -/

/-- R45: exactly the 28 words of the table decode, each to its opcode. -/
def Obligations.LegalWordsAreExactlyTheTable : Prop :=
  ∀ op : Opcode, decodesExactly op (tableWords op)

/-- R48: a non-negative word raises InvalidOpcode exactly when its value mod 100 is none of the nine opcodes; the fault
carries the whole word and its address. That the record has no `addr`, and that the faulting Step changes nothing but
`status` and `fault`, is not R48's: it is R75's and R76's, the spec's own decisions D5, D9 and D12 (log 11). -/
def Obligations.InvalidOpcodeExactly : Prop :=
  ∀ w : Nat,
    (decodeWord (w : Int) = .error .invalidOpcode ↔ w % 100 ∉ ([1, 2, 3, 4, 5, 6, 7, 8, 99] : List Nat)) ∧
    (w % 100 ∉ ([1, 2, 3, 4, 5, 6, 7, 8, 99] : List Nat) → wordRaises (w : Int) .invalidOpcode)

/-- R49: a negative word raises InvalidOpcode, whatever its value mod 100 (the spec's own decision D2). -/
def Obligations.NegativeWordsHaveNoOpcode : Prop :=
  ∀ w : Int, w < 0 → decodeWord w = .error .invalidOpcode ∧ wordRaises w .invalidOpcode

/-- R50: with a known opcode, a word raises InvalidMode exactly in the three cases (the spec's decisions D3, D4). -/
def Obligations.InvalidModeExactly : Prop :=
  ∀ (w : Nat) (op : Opcode), w % 100 = op.code →
    (decodeWord (w : Int) = .error .invalidMode ↔
      (∃ k, 1 ≤ k ∧ k ≤ op.arity ∧ digit w (k + 1) ≠ 0 ∧ digit w (k + 1) ≠ 1) ∨
      (∃ k, op.arity < k ∧ k ≤ 3 ∧ digit w (k + 1) ≠ 0) ∨
      (∃ k, 5 ≤ k ∧ digit w k ≠ 0)) ∧
    (decodeWord (w : Int) = .error .invalidMode → wordRaises (w : Int) .invalidMode)

/-- R51, with the order of R46: InvalidWriteMode is raised by exactly the words that are legal but for a 1 in the digit of
the write target, parameter 3 of ADD, MUL, LT and EQ and parameter 1 of IN, whatever parameter words follow. -/
def Obligations.InvalidWriteModeExactly : Prop :=
  ∀ w : Int,
    (decodeWord w = .error .invalidWriteMode ↔
      w = 103 ∨ ∃ m1 m2 op : Int, m1 ∈ ([0, 1] : List Int) ∧ m2 ∈ ([0, 1] : List Int) ∧
        op ∈ ([1, 2, 7, 8] : List Int) ∧ w = 10000 + 1000 * m2 + 100 * m1 + op) ∧
    (decodeWord w = .error .invalidWriteMode → wordRaises w .invalidWriteMode)

/-- R44: the number of words of an instruction is known from the opcode field alone, and is 1 to 4. -/
def Obligations.LengthKnownFromOpcode : Prop :=
  (∀ (w v : Int) (ps qs rest tail : List Int) (i j : Instr), w % 100 = v % 100 →
    decode (w :: ps) = .ok (i, rest) → decode (v :: qs) = .ok (j, tail) →
      (w :: ps).length - rest.length = (v :: qs).length - tail.length ∧
      1 ≤ (w :: ps).length - rest.length ∧ (w :: ps).length - rest.length ≤ 4) ∧
  ∀ (ws rest : List Int) (i : Instr), decode ws = .ok (i, rest) → ws.length = i.opcode.length + rest.length

/-- Decode and encode agree, from the instruction: the words of every well-formed instruction, with whatever words after
them, decode to it and leave those words (R46, R53). -/
def Obligations.DecodeOfEncode : Prop :=
  ∀ (i : Instr) (rest : List Int), i.wellFormed = true → decode (encode i ++ rest) = .ok (i, rest)

/-- Decode and encode agree, from the words: words that decode are the encoding of a well-formed instruction and the words
left over, so each instruction has one encoding (R45, R46, R53). -/
def Obligations.EncodeOfDecode : Prop :=
  ∀ (ws rest : List Int) (i : Instr), decode ws = .ok (i, rest) → i.wellFormed = true ∧ ws = encode i ++ rest

/-- Words written out from 30_encoding.md R43 and R53, one for each opcode, decode to the instruction they stand for. -/
def Obligations.SampleWordsDecode : Prop :=
  decode [1001, 10, -1, 10] = .ok (.add (.pos 10) (.imm (-1)) (.pos 10), []) ∧
  decode [1002, 4, 3, 4] = .ok (.mul (.pos 4) (.imm 3) (.pos 4), []) ∧
  decode [3, 9] = .ok (.inp (.pos 9), []) ∧
  decode [104, 999] = .ok (.out (.imm 999), []) ∧
  decode [105, 1, 9] = .ok (.jt (.imm 1) (.pos 9), []) ∧
  decode [1006, 20, 31] = .ok (.jf (.pos 20) (.imm 31), []) ∧
  decode [107, 8, 21, 20] = .ok (.lt (.imm 8) (.pos 21) (.pos 20), []) ∧
  decode [8, 9, 10, 9] = .ok (.eq (.pos 9) (.pos 10) (.pos 9), []) ∧
  decode [99, 7] = .ok (.hlt, [7])

/-- R53: a line of assembler text for a well-formed instruction, its operands written `[a]` or `#v`, assembles to the
instruction's words. -/
def Obligations.AssemblerEmitsEncoding : Prop :=
  ∀ i : Instr, i.wellFormed = true →
    assemble [.instr i.opcode (i.params.map fun p =>
      match p.mode with
      | .position => AsmOperand.pos (.num p.word)
      | .immediate => AsmOperand.imm (.num p.word))] = .ok (encode i)

/-! ### The instructions -/

/-- R57 (with R56: the sum is exact): ADD. -/
def Obligations.AddRule : Prop := binaryRule .add .add [1, 101, 1001, 1101] fun a b => a + b

/-- R58 (with R56: the product is exact): MUL. -/
def Obligations.MulRule : Prop := binaryRule .mul .mul [2, 102, 1002, 1102] fun a b => a * b

/-- R70 (with R69: a signed comparison whose result is the word 1 or 0): LT. -/
def Obligations.LtRule : Prop := binaryRule .lt .lt [7, 107, 1007, 1107] fun a b => if a < b then 1 else 0

/-- R71 (with R69): EQ. -/
def Obligations.EqRule : Prop := binaryRule .eq .eq [8, 108, 1008, 1108] fun a b => if a = b then 1 else 0

/-- R63: IN. Its word, `103` refused; the head of the queue goes to dst and off the queue; a bad dst faults before the
input port is looked at; an empty port faults when closed and holds when open (the spec's decisions D6, D10). -/
def Obligations.InRule : Prop :=
  decodesExactly .inp [3] ∧ decodeWord 103 = .error .invalidWriteMode ∧
  (∀ (p : Int) (rest : List Int), decode (3 :: p :: rest) = .ok (.inp ⟨.position, p⟩, rest)) ∧
  ownChecksFirst .inp ∧
  ∀ (dst : Param) (s : State), dst.mode = .position →
    (∀ v vs, s.inBounds dst.word → s.inQueue = v :: vs →
      ∃ t, exec (.inp dst) s = .next t ∧ State.afterStore { s with inQueue := vs } t dst.word v 2) ∧
    (¬ s.inBounds dst.word → exec (.inp dst) s = .next (s.takeFault .addressOutOfBounds (some dst.word))) ∧
    (s.inBounds dst.word → s.inQueue = [] → s.inClosed = true →
      exec (.inp dst) s = .next (s.takeFault .inputExhausted none)) ∧
    (s.inBounds dst.word → s.inQueue = [] → s.inClosed = false → exec (.inp dst) s = .next s)

/-- R64 (with R61): OUT. Its words; the value is appended to the log, and nothing else but `ip` changes; a faulting OUT
emits nothing (that the sink accepts at once is the spec's decision D11). -/
def Obligations.OutRule : Prop :=
  decodesExactly .out [4, 104] ∧
  (∀ (m : Mode) (p : Int) (rest : List Int),
    decode (((4 + 100 * m.digit : Nat) : Int) :: p :: rest) = .ok (.out ⟨m, p⟩, rest)) ∧
  ownChecksFirst .out ∧
  ∀ (a : Param) (s : State),
    (s.readable a →
      exec (.out a) s = .next { s with outLog := s.outLog ++ [s.value a], ip := s.ip + 2 }) ∧
    (¬ s.readable a → exec (.out a) s = .next (s.takeFault .addressOutOfBounds (some a.word)))

/-- R67 (with R65): JT. -/
def Obligations.JtRule : Prop := jumpRule .jt .jt [5, 105, 1005, 1105] fun a => a ≠ 0

/-- R68 (with R65): JF. -/
def Obligations.JfRule : Prop := jumpRule .jf .jf [6, 106, 1006, 1106] fun a => a = 0

/-- R72: HLT. Its word, `199` refused; the status becomes HALTED and nothing else changes, `ip` not either (the spec's
decision D12). -/
def Obligations.HltRule : Prop :=
  decodesExactly .hlt [99] ∧ decodeWord 199 = .error .invalidMode ∧
  (∀ rest : List Int, decode (99 :: rest) = .ok (.hlt, rest)) ∧
  ownChecksFirst .hlt ∧
  ∀ s : State, exec .hlt s = .next { s with status := .halted }

/-- The effective value of a parameter, the term the rules above are written in, is that of R33; an operand can be read
exactly when it is immediate or names a cell. -/
def Obligations.ReadEffectiveValue : Prop :=
  ∀ (s : State) (p : Param),
    (p.mode = .immediate → s.read p = .ok p.word ∧ s.readable p ∧ s.value p = p.word) ∧
    (p.mode = .position → s.inBounds p.word →
      s.readable p ∧ s.read p = s.memRead p.word ∧ s.read p = .ok (s.value p)) ∧
    (p.mode = .position → ¬ s.inBounds p.word →
      ¬ s.readable p ∧ s.read p = .error (.raise .addressOutOfBounds (some p.word)))

/-- An instruction that is not well formed, a two-operand instruction or IN with an immediate target, which decode never
gives, takes InvalidWriteMode when its sources can be read. This is the Write primitive of R34's source text; that it
stands in the meanings at all is the model's choice (log 12). -/
def Obligations.IllFormedTargetFaults : Prop :=
  ∀ (a b dst : Param) (s : State), dst.mode = .immediate →
    (s.readable a → s.readable b → ∀ i ∈ ([.add a b dst, .mul a b dst, .lt a b dst, .eq a b dst] : List Instr),
      exec i s = .next (s.takeFault .invalidWriteMode none)) ∧
    exec (.inp dst) s = .next (s.takeFault .invalidWriteMode none)

/-! ### Frames -/

/-- The frame of the storing instructions ADD, MUL, LT, EQ and IN: whenever one answers a next state, every address but
the one its dst names reads as before; `N`, the closed flag and the output log are as before; the input queue too, but for
IN, which may take its head; and `status` and `fault` change only together, by a fault. -/
def Obligations.StoringFrame : Prop :=
  ∀ (a b dst : Param) (s t : State) (i : Instr),
    i ∈ ([.add a b dst, .mul a b dst, .lt a b dst, .eq a b dst, .inp dst] : List Instr) → exec i s = .next t →
      (∀ c, c ≠ dst.word → t.memRead c = s.memRead c) ∧
      (t.status = .faulted ∧ t.fault ≠ s.fault → ∀ c, t.memRead c = s.memRead c) ∧
      t.N = s.N ∧ t.inClosed = s.inClosed ∧ t.outLog = s.outLog ∧
      (t.inQueue = s.inQueue ∨ i = .inp dst ∧ ∃ v, s.inQueue = v :: t.inQueue) ∧
      ((t.status = s.status ∧ t.fault = s.fault) ∨ (t.status = .faulted ∧ t.ip = s.ip))

/-- The frame of the instructions that store nothing, OUT, JT, JF and HLT: every address reads as before; `N`, the input
queue and the closed flag are as before; the output log too, but for OUT; HLT changes nothing but `status`. -/
def Obligations.NonStoringFrame : Prop :=
  ∀ (a target : Param) (s t : State) (i : Instr),
    i ∈ ([.out a, .jt a target, .jf a target, .hlt] : List Instr) → exec i s = .next t →
      (∀ c, t.memRead c = s.memRead c) ∧
      t.N = s.N ∧ t.inQueue = s.inQueue ∧ t.inClosed = s.inClosed ∧
      (i ≠ .out a → t.outLog = s.outLog) ∧
      (i = .hlt → t.fault = s.fault ∧ t.ip = s.ip) ∧
      (i ≠ .hlt → (t.status = s.status ∧ t.fault = s.fault) ∨ (t.status = .faulted ∧ t.ip = s.ip))

/-! ### The Step -/

/-- A Step runs the decoded instruction: when the engine is running and the words from `ip` on decode to an instruction,
the Step is `exec` of it in the same state. `exec` itself moves `ip`; the Step adds nothing around it (R54). -/
def Obligations.StepRunsDecodedInstruction : Prop :=
  ∀ (s : State) (ws rest : List Int) (i : Instr), s.status = .running → s.holdsAt s.ip ws →
    decode ws = .ok (i, rest) → step s = exec i s

/-- R54, steps 1 to 3, with the order of R77: a running engine whose `ip` names no cell takes AddressOutOfBounds with no
word; a word that does not decode takes its fault, whatever follows it; and of the parameter words the first that memory
does not have is the one reported. -/
def Obligations.FetchFaultsInOrder : Prop :=
  ∀ s : State, s.status = .running →
    (¬ s.inBounds s.ip → step s = .next { s with
      status := .faulted
      fault := some { kind := .addressOutOfBounds, ip := s.ip, word := none, addr := some s.ip } }) ∧
    (∀ w e, s.memRead s.ip = .ok w → decodeWord w = .error e → step s = .next { s with
      status := .faulted
      fault := some { kind := kindOfWordError e, ip := s.ip, word := some w, addr := none } }) ∧
    (∀ w h, ∀ k : Nat, s.memRead s.ip = .ok w → decodeWord w = .ok h → k < h.op.arity →
      (∀ j : Nat, j < k → s.inBounds (s.ip + 1 + j)) → ¬ s.inBounds (s.ip + 1 + k) → step s = .next { s with
        status := .faulted
        fault := some { kind := .addressOutOfBounds, ip := s.ip, word := some w, addr := some (s.ip + 1 + k) } })

/-- R75 and R76: when a Step of a running engine faults, it writes the fault record and the status and nothing else; the
record has the kind with its code, the Step's `ip`, the word there or none, and the address for AddressOutOfBounds only,
an address outside memory (the record and the unchanged state are the spec's decisions D5, D9, D12). -/
def Obligations.FaultEntryIsPrecise : Prop :=
  ∀ s t : State, s.status = .running → step s = .next t → t.status = .faulted →
    ∃ kind word addr,
      t = { s with status := .faulted, fault := some { kind := kind, ip := s.ip, word := word, addr := addr } } ∧
      t.fault.map FaultRecord.fields = some (kind, kind.code, s.ip, word, addr) ∧
      (∀ w, word = some w ↔ s.memRead s.ip = .ok w) ∧
      (kind = .addressOutOfBounds → ∃ a, addr = some a ∧ ¬ s.inBounds a) ∧
      (kind ≠ .addressOutOfBounds → addr = none)

/-- The causes of R74's table: what each kind of fault says of the Step that took it. -/
def Obligations.FaultKindsHaveTheirCauses : Prop :=
  ∀ (s t : State) (r : FaultRecord), s.status = .running → step s = .next t → t.status = .faulted →
    t.fault = some r →
    (r.kind = .invalidOpcode → ∃ w, s.memRead s.ip = .ok w ∧ decodeWord w = .error .invalidOpcode) ∧
    (r.kind = .invalidMode → ∃ w, s.memRead s.ip = .ok w ∧ decodeWord w = .error .invalidMode) ∧
    (r.kind = .invalidWriteMode → ∃ w, s.memRead s.ip = .ok w ∧ decodeWord w = .error .invalidWriteMode) ∧
    (r.kind = .inputExhausted → s.memRead s.ip = .ok 3 ∧ s.inQueue = [] ∧ s.inClosed = true) ∧
    (r.kind = .addressOutOfBounds → ∃ a, r.addr = some a ∧ ¬ s.inBounds a ∧
      (s.memRead s.ip = .ok 99 → False))

/-- R19 and R74: the codes of the three statuses and of the five fault kinds. -/
def Obligations.StatusAndFaultCodes : Prop :=
  Status.code .running = 0 ∧ Status.code .halted = 1 ∧ Status.code .faulted = 2 ∧
  FaultKind.code .invalidOpcode = 1 ∧ FaultKind.code .addressOutOfBounds = 2 ∧
  FaultKind.code .invalidWriteMode = 3 ∧ FaultKind.code .inputExhausted = 4 ∧ FaultKind.code .invalidMode = 5

/-- R91: a Step of an ended engine changes nothing and reports the same outcome again (the spec's decision D13). -/
def Obligations.EndedStatesAbsorb : Prop :=
  ∀ s : State,
    (s.status = .halted → step s = .next s ∧ s.stepReport = .halted) ∧
    (s.status = .faulted → step s = .next s ∧ s.stepReport = .faulted s.fault)

/-- R89: the four outcomes of a Step. -/
def Obligations.StepReportsFourOutcomes : Prop :=
  ∀ s t : State, step s = .next t →
    (s.stepReport = .held ↔ s.inWait = true) ∧
    (s.inWait = true → t = s) ∧
    (s.stepReport = .stepped ↔ s.inWait = false ∧ t.status = .running) ∧
    (s.stepReport = .halted ↔ t.status = .halted) ∧
    (∀ r, s.stepReport = .faulted r ↔ t.status = .faulted ∧ t.fault = r)

/-- Every Step of every state, and every instruction in every state, has a next state: the machine is never undefined
(R101, R55). That a fault and a hold are next states is the model's reading (log 4, log 5). -/
def Obligations.NothingIsUndefined : Prop :=
  (∀ s : State, ∃ t, step s = .next t) ∧ ∀ (i : Instr) (s : State), ∃ t, exec i s = .next t

/-- R17: a Step of a running engine leaves `ip`, or completes an instruction without fault or halt and sets `ip` past its
words or to the value of a jump's target, which names a cell. -/
def Obligations.IpMovesOnlyOnCompletion : Prop :=
  ∀ s t : State, s.status = .running → step s = .next t →
    t.ip = s.ip ∨ ∃ i, s.fetch = .ok i ∧ t.status = .running ∧ t.fault = s.fault ∧
      (t.ip = s.ip + (i.opcode.length : Int) ∨
        ∃ a target, (i = .jt a target ∨ i = .jf a target) ∧ t.ip = s.value target ∧ s.inBounds t.ip)

/-- R19, R72: a Step of a running engine sets HALTED exactly when the word at `ip` is 99. -/
def Obligations.OnlyHltHalts : Prop :=
  ∀ s t : State, s.status = .running → step s = .next t → (t.status = .halted ↔ s.memRead s.ip = .ok 99)

/-- R15, R22, R23: a Step keeps `N` and the closed flag; it takes at most the head of the input queue, and only at the
word of opcode 3; it appends at most one value to the output log, and only at a word of opcode 4. -/
def Obligations.StepKeepsPortDiscipline : Prop :=
  ∀ s t : State, step s = .next t →
    t.N = s.N ∧ t.inClosed = s.inClosed ∧
    (t.inQueue = s.inQueue ∨ s.memRead s.ip = .ok 3 ∧ ∃ v, s.inQueue = v :: t.inQueue) ∧
    (t.outLog = s.outLog ∨
      (s.memRead s.ip = .ok 4 ∨ s.memRead s.ip = .ok 104) ∧ ∃ v, t.outLog = s.outLog ++ [v])

/-- R13, R23: no Step reads the output log: with other values before it, the Step does the same and adds the same. -/
def Obligations.OutputLogIsNeverRead : Prop :=
  ∀ (s t : State) (before : List Int), step s = .next t →
    step { s with outLog := before ++ s.outLog } = .next { t with outLog := before ++ t.outLog }

/-- R36, R38, and R57's corner cases: an ADD that stores into its own words, or into the word after it, is not affected;
the stored word is what the next Step fetches there. -/
def Obligations.StoreIntoCodeIsSeenNext : Prop :=
  ∀ (s : State) (a b : Param) (d : Int), s.status = .running →
    s.holdsAt s.ip (encode (.add a b (.pos d))) → s.readable a → s.readable b → s.inBounds d →
      ∃ t, step s = .next t ∧ t.status = .running ∧ t.ip = s.ip + 4 ∧
        t.memRead d = .ok (s.value a + s.value b) ∧
        (d = s.ip + 4 → ∀ e, decodeWord (s.value a + s.value b) = .error e →
          step t = .next (t.takeFault (kindOfWordError e) none))

/-! ### Invariants -/

/-- The invariant holds after reset: at the interface's reset state and after every reset of R87. -/
def Obligations.ResetMeetsInvariant : Prop :=
  State.reset.Inv ∧ ∀ image inInit c, (State.resetWith image inInit c).Inv

/-- From every state that meets the invariant, a Step gives a state that meets it: memory stays canonical and within
`[0, N)`, `ip` stays non-negative, the fault record is there exactly when the status is FAULTED and tells of the state,
and after a halt `ip` is at the HLT word (R15, R18, R20, R72, R75, R76). -/
def Obligations.StepKeepsInvariant : Prop :=
  ∀ s t : State, s.Inv → step s = .next t → t.Inv

/-- The host's actions keep the invariant too (R62). -/
def Obligations.HostActionsKeepInvariant : Prop :=
  ∀ (es : List HostEvent) (s t : State), s.Inv → runEvents es s = .ok t → t.Inv

/-- Once a run has ended nothing the host may do but a reset changes its outcome (R73, R78, R91). -/
def Obligations.EndedRunsStayEnded : Prop :=
  ∀ (es : List HostEvent) (s t : State), s.ended → runEvents es s = .ok t → s.sameRun t

/-! ### Memory -/

/-- R31: a read or a write of an address outside `[0, N)` raises AddressOutOfBounds with it; a write changes only its cell,
and a read after it gives the value written. -/
def Obligations.MemoryAccessIsChecked : Prop :=
  ∀ (s : State) (a v : Int),
    (s.inBounds a → (∃ w, s.memRead a = .ok w) ∧
      ∃ t, s.memWrite a v = .ok t ∧ t.memRead a = .ok v ∧ (∀ b, b ≠ a → t.memRead b = s.memRead b) ∧
        t = { s with mem := t.mem }) ∧
    (¬ s.inBounds a → s.memRead a = .error (.raise .addressOutOfBounds (some a)) ∧
      s.memWrite a v = .error (.raise .addressOutOfBounds (some a)))

/-- Memories in canonical form that read the same are the same data. The form is the model's representation (log 3). -/
def Obligations.CanonicalMemoriesAreEqual : Prop :=
  ∀ (n : Nat) (m m' : Memory), Memory.wf n m = true → Memory.wf n m' = true →
    (∀ a, a < n → m.get a = m'.get a) → m = m'

/-! ### Input -/

/-- R60: the three outcomes of `InPop`, and how a hold is lifted: after the host appends a value the same IN completes
with it, and after the host closes the port it faults. -/
def Obligations.InPopAndHold : Prop :=
  (∀ (s : State) (v : Int) (vs : List Int), s.inQueue = v :: vs → s.inPop = .ok (v, { s with inQueue := vs })) ∧
  (∀ s : State, s.inQueue = [] → s.inClosed = true → s.inPop = .error (.raise .inputExhausted none)) ∧
  (∀ s : State, s.inQueue = [] → s.inClosed = false → s.inPop = .error .hold) ∧
  ∀ s : State, s.inWait = true → step s = .next s ∧
    (∀ v u, s.hostAppend v = .ok u →
      ∃ d t, s.memRead (s.ip + 1) = .ok d ∧ step u = .next t ∧ s.afterStore t d v 2) ∧
    (∀ u, s.hostClose = .ok u → step u = .next (u.takeFault .inputExhausted none))

/-- R24: the derived signal `in_wait`, in terms of the words in memory; while it is true no Step completes (the spec's
decisions D10, D21; that a held Step answers the same state is the model's reading of R89, log 5). -/
def Obligations.InWaitExactly : Prop :=
  ∀ s : State,
    (s.inWait = true ↔ s.status = .running ∧ s.memRead s.ip = .ok 3 ∧
      (∃ d, s.memRead (s.ip + 1) = .ok d ∧ s.inBounds d) ∧ s.inQueue = [] ∧ s.inClosed = false) ∧
    (s.inWait = true → step s = .next s)

/-- R62: the two actions of the host on the input port, allowed exactly while it is open, and what they leave alone. -/
def Obligations.HostActsOnOpenPortOnly : Prop :=
  ∀ (s : State) (v : Int),
    (s.inClosed = false →
      s.hostAppend v = .ok { s with inQueue := s.inQueue ++ [v] } ∧ s.hostClose = .ok { s with inClosed := true }) ∧
    (s.inClosed = true → s.hostAppend v = .error .portClosed ∧ s.hostClose = .error .portClosed)

/-- An append commutes with a Step that does not hold: the queued value is not looked at before its turn (R22, R60, R99). -/
def Obligations.AppendCommutesWithStep : Prop :=
  ∀ (s u : State) (v : Int), s.inWait = false → s.hostAppend v = .ok u →
    ∃ t t', step s = .next t ∧ t.hostAppend v = .ok t' ∧ step u = .next t'

/-- R99: a run is deterministic, however the host's actions interleave with Steps: two runs from one state, whose hosts
supply the same values and close the port or not alike, and which both end, end alike. -/
def Obligations.RunsAreDeterministic : Prop :=
  ∀ (s t u : State) (es es' : List HostEvent), runEvents es s = .ok t → runEvents es' s = .ok u →
    t.ended → u.ended → suppliedValues es = suppliedValues es' → closesPort es = closesPort es' → t.sameRun u

/-! ### The host's side -/

/-- What Reset leaves in every field (R25, R87). The source states `ip` and `M` alone: the clauses on `status`, `fault`,
`inQueue`, `inClosed` and `outLog` are the spec's own decisions D10, D11 and D19, as R25 says (log 11). -/
def Obligations.ResetSetsEveryField : Prop :=
  ∀ (image inInit : List Int) (c : Bool) (s : State), s = State.resetWith image inInit c →
    s.N = image.length ∧
    (∀ k : Nat, ∀ h : k < image.length, s.memRead (k : Int) = .ok image[k]) ∧
    s.ip = 0 ∧ s.status = .running ∧ s.fault = none ∧ s.inQueue = inInit ∧ s.inClosed = c ∧ s.outLog = []

/-- R95: ReadBack. -/
def Obligations.ReadBackOnlyWhenEnded : Prop :=
  ∀ (s : State) (a : Int),
    (s.status = .running → s.readBack a = .error .stillRunning) ∧
    (s.ended → ¬ s.inBounds a → s.readBack a = .error .addressOutOfMemory) ∧
    (s.ended → ∀ w, s.readBack a = .ok w ↔ s.memRead a = .ok w)

/-- R90: Run applies Step until the run has ended; more fuel does not change an end it has reached. Fuel is the model's
own (log 9). -/
def Obligations.RunStepsToTheEnd : Prop :=
  ∀ (fuel : Nat) (s t : State), run fuel s = .ended t →
    t.ended ∧ (∀ more, run (fuel + more) s = .ended t) ∧
    ∃ n, n ≤ fuel ∧ runEvents (List.replicate n .step) s = .ok t

/-- R97: the host's patch changes cells 1 and 2 of a copy and nothing else, and is an error for a program of fewer than 3
words. -/
def Obligations.PatchChangesNounAndVerb : Prop :=
  ∀ (program : List Int) (noun verb : Int),
    (program.length < 3 → patch program noun verb = .error .imageTooShort) ∧
    (3 ≤ program.length → ∃ image, patch program noun verb = .ok image ∧ image.length = program.length ∧
      image[1]? = some noun ∧ image[2]? = some verb ∧ ∀ k, k ≠ 1 → k ≠ 2 → image[k]? = program[k]?)

/-- R98: a pair the search finds is within the bounds, its run gives the target, it reports `100*noun + verb`, and no pair
before it in row-major order gives the target. -/
def Obligations.SearchFindsFirstMatch : Prop :=
  ∀ (fuel : Nat) (program inInit : List Int) (c : Bool) (bound : Nat) (target : Int)
    (benign : Option FaultRecord → Bool) (n v r : Nat),
    search fuel program inInit c bound target benign = .found n v r →
      n ≤ bound ∧ v ≤ bound ∧ r = 100 * n + v ∧ replay fuel program inInit c n v = .output target ∧
      ∀ n' v' : Nat, v' ≤ bound → (n' < n ∨ n' = n ∧ v' < v) →
        replay fuel program inInit c n' v' ≠ .output target

/-- A word the host places with `withFetchWord` is the instruction the next Step runs (log 1, log 7: the model's
convention). -/
def Obligations.PlacedWordRunsNext : Prop :=
  ∀ (s : State) (nbits w : Nat) (i : Instr), decodeTableWord nbits w = some i →
    step (s.withFetchWord nbits w) = exec i (s.withFetchWord nbits w)
end

