-- ==== Sys2Proof/Laws/Decode.lean ====
section
/-! SUPPORT. Laws of decoding: what each opcode number, mode digit and header gives. -/

namespace Sys2Proof

@[simp] theorem ofCode_code (op : Opcode) : Opcode.ofCode? op.code = some op := by cases op <;> rfl

theorem ofCode_eq_some {n : Nat} {op : Opcode} : Opcode.ofCode? n = some op ↔ n = op.code := by
  constructor
  · intro h
    unfold Opcode.ofCode? at h
    split at h <;> cases h <;> rfl
  · rintro rfl; exact ofCode_code op

theorem code_lt_hundred (op : Opcode) : op.code < 100 := by cases op <;> decide

@[simp] theorem ofDigit_digit (m : Mode) : Mode.ofDigit? m.digit = some m := by cases m <;> rfl

theorem ofDigit_eq_some {d : Nat} {m : Mode} : Mode.ofDigit? d = some m ↔ d = m.digit := by
  constructor
  · intro h
    unfold Mode.ofDigit? at h
    split at h <;> cases h <;> rfl
  · rintro rfl; exact ofDigit_digit m

theorem digit_le_one (m : Mode) : m.digit ≤ 1 := by cases m <;> decide

/-- The mode of parameter `k`: its digit, and position when the instruction has no such parameter. -/
theorem paramMode_eq_some {n k d : Nat} {m : Mode} :
    paramMode? n k d = some m ↔ d = m.digit ∧ (n < k → m = .position) := by
  unfold paramMode?
  by_cases h : k ≤ n
  · rw [if_pos h, ofDigit_eq_some]
    exact ⟨fun e => ⟨e, fun h' => by omega⟩, fun e => e.1⟩
  · rw [if_neg h]
    by_cases hd : d = 0
    · rw [if_pos hd]
      constructor
      · intro e; cases e; exact ⟨hd, fun _ => rfl⟩
      · rintro ⟨-, hm⟩; rw [hm (by omega)]
    · rw [if_neg hd]
      refine ⟨nofun, fun ⟨e, hm⟩ => absurd ?_ hd⟩
      rw [hm (by omega)] at e
      exact e

theorem paramMode_eq_none {n k d : Nat} :
    paramMode? n k d = none ↔ (k ≤ n ∧ 1 < d) ∨ (n < k ∧ d ≠ 0) := by
  unfold paramMode?
  by_cases h : k ≤ n
  · rw [if_pos h]
    rcases d with _ | _ | d
    · simp [Mode.ofDigit?]
    · simp [Mode.ofDigit?, h]
    · simp [Mode.ofDigit?, h]
  · rw [if_neg h]
    split <;> simp_all

/-- The mode of a parameter that the opcode does not have is position, and no write target is immediate: what `Decode`
accepts (30_encoding.md R46). -/
def Header.legal (h : Header) : Prop :=
  (h.op.arity < 1 → h.mode1 = .position) ∧ (h.op.arity < 2 → h.mode2 = .position) ∧
  (h.op.arity < 3 → h.mode3 = .position) ∧ h.immediateTarget = false
  deriving Decidable

/-- The instruction word of a header (30_encoding.md R53). -/
def Header.word (h : Header) : Nat :=
  h.op.code + 100 * h.mode1.digit + 1000 * h.mode2.digit + 10000 * h.mode3.digit

theorem wordFields (h : Header) : h.word % 100 = h.op.code ∧ h.word / 100000 = 0 ∧
    digit h.word 2 = h.mode1.digit ∧ digit h.word 3 = h.mode2.digit ∧ digit h.word 4 = h.mode3.digit := by
  have hc := code_lt_hundred h.op
  have h1 := digit_le_one h.mode1
  have h2 := digit_le_one h.mode2
  have h3 := digit_le_one h.mode3
  simp only [Header.word, digit]
  omega

theorem word_of_fields {v : Nat} (h : Header) (hc : v % 100 = h.op.code) (hz : v / 100000 = 0)
    (h1 : digit v 2 = h.mode1.digit) (h2 : digit v 3 = h.mode2.digit) (h3 : digit v 4 = h.mode3.digit) :
    v = h.word := by
  simp only [Header.word, digit] at *
  omega

/-- A word decodes to a header exactly when it is the word of that header and the header is legal. -/
theorem decodeWord_eq_ok {w : Int} {h : Header} : decodeWord w = .ok h ↔ w = (h.word : Int) ∧ h.legal := by
  obtain ⟨op, m1, m2, m3⟩ := h
  constructor
  · intro hd
    unfold decodeWord at hd
    split at hd
    · cases hd
    · split at hd
      · cases hd
      · rename_i hneg _ op' hop
        split at hd
        · cases hd
        · rename_i hz
          split at hd
          · rename_i a b c h1 h2 h3
            split at hd
            · cases hd
            · rename_i ht
              cases hd
              rw [ofCode_eq_some] at hop
              rw [paramMode_eq_some] at h1 h2 h3
              have := word_of_fields ⟨op, m1, m2, m3⟩ hop (by omega) h1.1 h2.1 h3.1
              refine ⟨by omega, h1.2, h2.2, h3.2, by simpa using ht⟩
          · cases hd
  · rintro ⟨rfl, l1, l2, l3, l4⟩
    obtain ⟨hc, hz, h1, h2, h3⟩ := wordFields ⟨op, m1, m2, m3⟩
    have hnn : ¬ (((Header.word ⟨op, m1, m2, m3⟩ : Nat) : Int) < 0) := by omega
    have e1 := paramMode_eq_some.2 ⟨h1, l1⟩
    have e2 := paramMode_eq_some.2 ⟨h2, l2⟩
    have e3 := paramMode_eq_some.2 ⟨h3, l3⟩
    simp only [decodeWord, if_neg hnn, Int.toNat_natCast, hc, ofCode_code, hz, e1, e2, e3, l4]
    rfl

/-! ### Parameters -/

@[simp] theorem paramWord_one (p : Int) (ps : List Int) : paramWord (p :: ps) 1 = p := rfl
@[simp] theorem paramWord_two (p q : Int) (ps : List Int) : paramWord (p :: q :: ps) 2 = q := rfl
@[simp] theorem paramWord_three (p q r : Int) (ps : List Int) : paramWord (p :: q :: r :: ps) 3 = r := rfl

@[simp] theorem toInstr_opcode (h : Header) (ps : List Int) : (h.toInstr ps).opcode = h.op := by
  obtain ⟨op, m1, m2, m3⟩ := h
  cases op <;> rfl

theorem params_length (i : Instr) : i.params.length = i.opcode.arity := by cases i <;> rfl

theorem encode_length (i : Instr) : (encode i).length = i.opcode.length := by
  simp [encode, params_length, Opcode.length]; omega

end Sys2Proof
end

