-- ==== Sys2Proof/Laws/State.lean ====
section
/-! SUPPORT. One lemma for each field and each update of the state. -/

namespace Sys2Proof.Machine

variable (s : State) (a : Int) (v : Int) (n : Nat) (k : FaultKind) (o : Option Int)

@[simp] theorem setCell_N : (s.setCell a v).N = s.N := rfl
@[simp] theorem setCell_mem : (s.setCell a v).mem = s.mem.set a.toNat v := rfl
@[simp] theorem setCell_ip : (s.setCell a v).ip = s.ip := rfl
@[simp] theorem setCell_status : (s.setCell a v).status = s.status := rfl
@[simp] theorem setCell_fault : (s.setCell a v).fault = s.fault := rfl
@[simp] theorem setCell_inQueue : (s.setCell a v).inQueue = s.inQueue := rfl
@[simp] theorem setCell_inClosed : (s.setCell a v).inClosed = s.inClosed := rfl
@[simp] theorem setCell_outLog : (s.setCell a v).outLog = s.outLog := rfl

@[simp] theorem advance_N : (s.advance n).N = s.N := rfl
@[simp] theorem advance_mem : (s.advance n).mem = s.mem := rfl
@[simp] theorem advance_ip : (s.advance n).ip = s.ip + (n : Int) := rfl
@[simp] theorem advance_status : (s.advance n).status = s.status := rfl
@[simp] theorem advance_fault : (s.advance n).fault = s.fault := rfl
@[simp] theorem advance_inQueue : (s.advance n).inQueue = s.inQueue := rfl
@[simp] theorem advance_inClosed : (s.advance n).inClosed = s.inClosed := rfl
@[simp] theorem advance_outLog : (s.advance n).outLog = s.outLog := rfl

@[simp] theorem outPush_N : (s.outPush v).N = s.N := rfl
@[simp] theorem outPush_mem : (s.outPush v).mem = s.mem := rfl
@[simp] theorem outPush_ip : (s.outPush v).ip = s.ip := rfl
@[simp] theorem outPush_status : (s.outPush v).status = s.status := rfl
@[simp] theorem outPush_fault : (s.outPush v).fault = s.fault := rfl
@[simp] theorem outPush_inQueue : (s.outPush v).inQueue = s.inQueue := rfl
@[simp] theorem outPush_inClosed : (s.outPush v).inClosed = s.inClosed := rfl
@[simp] theorem outPush_outLog : (s.outPush v).outLog = s.outLog ++ [v] := rfl

@[simp] theorem takeFault_N : (s.takeFault k o).N = s.N := rfl
@[simp] theorem takeFault_mem : (s.takeFault k o).mem = s.mem := rfl
@[simp] theorem takeFault_ip : (s.takeFault k o).ip = s.ip := rfl
@[simp] theorem takeFault_status : (s.takeFault k o).status = .faulted := rfl
@[simp] theorem takeFault_fault : (s.takeFault k o).fault = some
    { kind := k, ip := s.ip, word := if s.inBounds s.ip then some (s.cell s.ip) else none, addr := o } := rfl
@[simp] theorem takeFault_inQueue : (s.takeFault k o).inQueue = s.inQueue := rfl
@[simp] theorem takeFault_inClosed : (s.takeFault k o).inClosed = s.inClosed := rfl
@[simp] theorem takeFault_outLog : (s.takeFault k o).outLog = s.outLog := rfl

@[simp] theorem finish_ok (t : State) : s.finish (.ok t) = .next t := rfl
@[simp] theorem finish_raise : s.finish (.error (.raise k o)) = .next (s.takeFault k o) := rfl
@[simp] theorem finish_hold : s.finish (.error .hold) = .next s := rfl

end Sys2Proof.Machine
end

