-- ==== Sys2Proof/Laws/Memory.lean ====
section
/-! SUPPORT. The laws of memory: reading after writing, and the canonical form, which every memory operation keeps. The
reading laws hold of every list, canonical or not. -/

namespace Sys2Proof.Machine

@[simp] theorem get_erase_self (m : Memory) (a : Nat) : (m.erase a).get a = Config.unlisted := by
  induction m with
  | nil => rfl
  | cons c m ih =>
    by_cases h : c.1 = a
    · simp [Memory.erase, h, ih]
    · simp [Memory.erase, Memory.get, h, ih]

theorem get_erase_of_ne (m : Memory) {a b : Nat} (hb : b ≠ a) : (m.erase a).get b = m.get b := by
  induction m with
  | nil => rfl
  | cons c m ih =>
    by_cases h : c.1 = a
    · simp [Memory.erase, Memory.get, h, ih, hb.symm]
    · simp [Memory.erase, Memory.get, h, ih]

theorem get_insert_of_ne (m : Memory) {a b : Nat} (v : Int) (hb : b ≠ a) : (m.insert a v).get b = m.get b := by
  induction m with
  | nil => simp [Memory.insert, Memory.get, hb.symm]
  | cons c m ih =>
    by_cases h : a < c.1
    · simp [Memory.insert, Memory.get, h, hb.symm]
    · simp [Memory.insert, Memory.get, h, ih]

theorem get_insert_erase_self (m : Memory) (a : Nat) (v : Int) : ((m.erase a).insert a v).get a = v := by
  induction m with
  | nil => simp [Memory.erase, Memory.insert, Memory.get]
  | cons c m ih =>
    by_cases h : c.1 = a
    · simpa [Memory.erase, h] using ih
    · by_cases hl : a < c.1
      · simp [Memory.erase, Memory.insert, Memory.get, h, hl]
      · simp [Memory.erase, Memory.insert, Memory.get, h, hl, ih]

@[simp] theorem get_set_self (m : Memory) (a : Nat) (v : Int) : (m.set a v).get a = v := by
  by_cases h : v = Config.unlisted
  · simp [Memory.set, h]
  · simp only [Memory.set, if_neg h]; exact get_insert_erase_self m a v

theorem get_set_of_ne (m : Memory) {a b : Nat} (v : Int) (hb : b ≠ a) : (m.set a v).get b = m.get b := by
  by_cases h : v = Config.unlisted
  · simp only [Memory.set, if_pos h]; exact get_erase_of_ne m hb
  · simp only [Memory.set, if_neg h]; rw [get_insert_of_ne _ v hb, get_erase_of_ne m hb]

theorem get_set (m : Memory) (a b : Nat) (v : Int) : (m.set a v).get b = if b = a then v else m.get b := by
  by_cases h : b = a
  · subst h; simp
  · simp [h, get_set_of_ne m v h]

/-! ### The canonical form -/

theorem wf_cons (n : Nat) (c : Nat × Int) (m : Memory) : Memory.wf n (c :: m) = true ↔
    c.1 < n ∧ c.2 ≠ Config.unlisted ∧ (∀ d ∈ m, c.1 < d.1) ∧ Memory.wf n m = true := by
  simp [Memory.wf, and_assoc]

theorem mem_erase {m : Memory} {a : Nat} {d : Nat × Int} (h : d ∈ m.erase a) : d ∈ m ∧ d.1 ≠ a := by
  induction m with
  | nil => simp [Memory.erase] at h
  | cons c m ih =>
    by_cases hc : c.1 = a
    · simp only [Memory.erase, if_pos hc] at h
      exact ⟨List.mem_cons_of_mem _ (ih h).1, (ih h).2⟩
    · simp only [Memory.erase, if_neg hc, List.mem_cons] at h
      rcases h with rfl | h
      · exact ⟨List.mem_cons_self, hc⟩
      · exact ⟨List.mem_cons_of_mem _ (ih h).1, (ih h).2⟩

theorem mem_insert {m : Memory} {a : Nat} {v : Int} {d : Nat × Int} (h : d ∈ m.insert a v) :
    d = (a, v) ∨ d ∈ m := by
  induction m with
  | nil => simpa [Memory.insert] using h
  | cons c m ih =>
    by_cases hc : a < c.1
    · simpa [Memory.insert, hc] using h
    · simp only [Memory.insert, if_neg hc, List.mem_cons] at h
      rcases h with rfl | h
      · exact .inr List.mem_cons_self
      · exact (ih h).imp_right (List.mem_cons_of_mem _)

theorem wf_erase {n : Nat} {m : Memory} (a : Nat) (h : Memory.wf n m = true) : Memory.wf n (m.erase a) = true := by
  induction m with
  | nil => rfl
  | cons c m ih =>
    obtain ⟨hn, hv, hlt, hm⟩ := (wf_cons n c m).1 h
    by_cases hc : c.1 = a
    · simpa [Memory.erase, hc] using ih hm
    · simp only [Memory.erase, if_neg hc]
      exact (wf_cons n c _).2 ⟨hn, hv, fun d hd => hlt d (mem_erase hd).1, ih hm⟩

theorem wf_insert {n : Nat} {m : Memory} {a : Nat} {v : Int} (h : Memory.wf n m = true) (ha : a < n)
    (hv : v ≠ Config.unlisted) (hno : ∀ d ∈ m, d.1 ≠ a) : Memory.wf n (m.insert a v) = true := by
  induction m with
  | nil => exact (wf_cons n (a, v) []).2 ⟨ha, hv, by simp, rfl⟩
  | cons c m ih =>
    obtain ⟨hn, hcv, hlt, hm⟩ := (wf_cons n c m).1 h
    by_cases hc : a < c.1
    · simp only [Memory.insert, if_pos hc]
      refine (wf_cons n (a, v) _).2 ⟨ha, hv, fun d hd => ?_, h⟩
      rcases List.mem_cons.1 hd with rfl | hd
      · exact hc
      · exact hc.trans (hlt d hd)
    · simp only [Memory.insert, if_neg hc]
      have hca : c.1 < a := by
        have := hno c List.mem_cons_self
        omega
      refine (wf_cons n c _).2 ⟨hn, hcv, fun d hd => ?_, ih hm fun d hd => hno d (List.mem_cons_of_mem _ hd)⟩
      rcases mem_insert hd with rfl | hd
      · exact hca
      · exact hlt d hd

/-- Writing a cell below `n` keeps the canonical form. -/
theorem wf_set {n : Nat} {m : Memory} {a : Nat} (v : Int) (h : Memory.wf n m = true) (ha : a < n) :
    Memory.wf n (m.set a v) = true := by
  by_cases hv : v = Config.unlisted
  · simpa [Memory.set, hv] using wf_erase a h
  · simp only [Memory.set, if_neg hv]
    exact wf_insert (wf_erase a h) ha hv fun d hd => (mem_erase hd).2

theorem wf_mono {n k : Nat} {m : Memory} (h : Memory.wf n m = true) (hk : n ≤ k) : Memory.wf k m = true := by
  induction m with
  | nil => rfl
  | cons c m ih =>
    obtain ⟨hn, hv, hlt, hm⟩ := (wf_cons n c m).1 h
    exact (wf_cons k c m).2 ⟨by omega, hv, hlt, ih hm⟩

/-- Placing words keeps the canonical form, when they fit. -/
theorem wf_setWords {n : Nat} {m : Memory} (ws : List Int) (a : Nat) (h : Memory.wf n m = true)
    (ha : a + ws.length ≤ n) : Memory.wf n (m.setWords a ws) = true := by
  induction ws generalizing m a with
  | nil => exact h
  | cons w ws ih =>
    simp only [List.length_cons] at ha
    exact ih (a + 1) (wf_set w h (by omega)) (by omega)

theorem mem_ofWordsFrom {a : Nat} {ws : List Int} {d : Nat × Int} (h : d ∈ Memory.ofWordsFrom a ws) :
    a ≤ d.1 ∧ d.1 < a + ws.length := by
  induction ws generalizing a with
  | nil => simp [Memory.ofWordsFrom] at h
  | cons w ws ih =>
    simp only [List.length_cons]
    by_cases hw : w = Config.unlisted
    · simp only [Memory.ofWordsFrom, if_pos hw] at h
      have := ih h
      omega
    · simp only [Memory.ofWordsFrom, if_neg hw, List.mem_cons] at h
      rcases h with rfl | h
      · simp
      · have := ih h
        omega

/-- The memory of an image is in canonical form. -/
theorem wf_ofWordsFrom (a : Nat) (ws : List Int) :
    Memory.wf (a + ws.length) (Memory.ofWordsFrom a ws) = true := by
  induction ws generalizing a with
  | nil => rfl
  | cons w ws ih =>
    have hm : Memory.wf (a + (w :: ws).length) (Memory.ofWordsFrom (a + 1) ws) = true :=
      wf_mono (ih (a + 1)) (by simp only [List.length_cons]; omega)
    by_cases hw : w = Config.unlisted
    · simpa only [Memory.ofWordsFrom, if_pos hw] using hm
    · simp only [Memory.ofWordsFrom, if_neg hw]
      refine (wf_cons _ _ _).2 ⟨by simp, hw, fun d hd => ?_, hm⟩
      have := mem_ofWordsFrom hd
      omega

theorem get_ofWordsFrom_of_lt {a b : Nat} (ws : List Int) (h : b < a) :
    (Memory.ofWordsFrom a ws).get b = Config.unlisted := by
  induction ws generalizing a with
  | nil => rfl
  | cons w ws ih =>
    by_cases hw : w = Config.unlisted
    · simpa only [Memory.ofWordsFrom, if_pos hw] using ih (a := a + 1) (by omega)
    · have hab : a ≠ b := by omega
      simp only [Memory.ofWordsFrom, if_neg hw, Memory.get, if_neg hab]
      exact ih (by omega)

/-- Cell `a + k` of an image's memory holds word `k` of the image. -/
theorem get_ofWordsFrom (a k : Nat) (ws : List Int) :
    (Memory.ofWordsFrom a ws).get (a + k) = ws.getD k Config.unlisted := by
  induction ws generalizing a k with
  | nil => simp [Memory.ofWordsFrom, Memory.get]
  | cons w ws ih =>
    cases k with
    | zero =>
      by_cases hw : w = Config.unlisted
      · simp only [Memory.ofWordsFrom, if_pos hw]
        rw [get_ofWordsFrom_of_lt ws (by omega)]
        simp [hw]
      · simp [Memory.ofWordsFrom, if_neg hw, Memory.get]
    | succ k =>
      have e : a + (k + 1) = a + 1 + k := by omega
      by_cases hw : w = Config.unlisted
      · simp only [Memory.ofWordsFrom, if_pos hw, e]
        rw [ih (a + 1) k]; simp
      · have hne : a ≠ a + 1 + k := by omega
        simp only [Memory.ofWordsFrom, if_neg hw, Memory.get, e, if_neg hne]
        rw [ih (a + 1) k]; simp

/-! ### Cells of a state -/

theorem cell_setCell (s : State) (a b : Int) (v : Int) (ha : s.inBounds a) (hb : s.inBounds b) :
    (s.setCell a v).cell b = if b = a then v else s.cell b := by
  have e : b.toNat = a.toNat ↔ b = a := by
    obtain ⟨ha0, -⟩ := ha
    obtain ⟨hb0, -⟩ := hb
    omega
  simp only [State.cell, setCell_mem, get_set, e]

end Sys2Proof.Machine
end

