-- ==== Sys2Proof/Laws/Ops.lean ====
section
/-! SUPPORT. One lemma for each shared operation that says all it can do. -/

namespace Sys2Proof.Machine

/-! ### Sequencing -/

@[simp] theorem except_ok_bind {ε α β : Type} (x : α) (f : α → Except ε β) : (Except.ok x >>= f) = f x := rfl
@[simp] theorem except_error_bind {ε α β : Type} (e : ε) (f : α → Except ε β) :
    ((Except.error e : Except ε α) >>= f) = .error e := rfl
@[simp] theorem except_pure {ε α : Type} (x : α) : (pure x : Except ε α) = .ok x := rfl

/-- A sequence completes exactly when both parts do. -/
theorem bind_eq_ok {ε α β : Type} {x : Except ε α} {f : α → Except ε β} {b : β} :
    (x >>= f) = .ok b ↔ ∃ y, x = .ok y ∧ f y = .ok b := by
  cases x <;> simp

/-- A sequence stops exactly when its first part stops, or that completes and its second part stops. -/
theorem bind_eq_error {ε α β : Type} {x : Except ε α} {f : α → Except ε β} {e : ε} :
    (x >>= f) = .error e ↔ x = .error e ∨ ∃ y, x = .ok y ∧ f y = .error e := by
  cases x <;> simp

/-! ### Memory access and operands -/

@[simp] theorem setCell_inBounds (s : State) (a b : Int) (v : Int) : (s.setCell a v).inBounds b ↔ s.inBounds b := Iff.rfl
@[simp] theorem advance_inBounds (s : State) (n : Nat) (b : Int) : (s.advance n).inBounds b ↔ s.inBounds b := Iff.rfl
@[simp] theorem outPush_inBounds (s : State) (v b : Int) : (s.outPush v).inBounds b ↔ s.inBounds b := Iff.rfl
@[simp] theorem takeFault_inBounds (s : State) (k : FaultKind) (o : Option Int) (b : Int) :
    (s.takeFault k o).inBounds b ↔ s.inBounds b := Iff.rfl
@[simp] theorem advance_cell (s : State) (n : Nat) (b : Int) : (s.advance n).cell b = s.cell b := rfl
@[simp] theorem outPush_cell (s : State) (v b : Int) : (s.outPush v).cell b = s.cell b := rfl
@[simp] theorem takeFault_cell (s : State) (k : FaultKind) (o : Option Int) (b : Int) :
    (s.takeFault k o).cell b = s.cell b := rfl

theorem memRead_of_inBounds {s : State} {a : Int} (h : s.inBounds a) : s.memRead a = .ok (s.cell a) := if_pos h

theorem memRead_of_not_inBounds {s : State} {a : Int} (h : ¬ s.inBounds a) :
    s.memRead a = .error (.raise .addressOutOfBounds (some a)) := if_neg h

theorem memRead_eq_ok {s : State} {a : Int} {w : Int} : s.memRead a = .ok w ↔ s.inBounds a ∧ s.cell a = w := by
  by_cases h : s.inBounds a
  · simp only [memRead_of_inBounds h, Except.ok.injEq]; exact ⟨fun e => ⟨h, e⟩, fun e => e.2⟩
  · simp only [memRead_of_not_inBounds h]; exact ⟨nofun, fun e => absurd e.1 h⟩

/-- A read never holds: if it does not complete, it raises AddressOutOfBounds with its address. -/
theorem memRead_eq_error {s : State} {a : Int} {e : Stop} :
    s.memRead a = .error e ↔ ¬ s.inBounds a ∧ e = .raise .addressOutOfBounds (some a) := by
  by_cases h : s.inBounds a
  · simp only [memRead_of_inBounds h]; exact ⟨nofun, fun e => absurd h e.1⟩
  · simp only [memRead_of_not_inBounds h, Except.error.injEq]; exact ⟨fun e => ⟨h, e.symm⟩, fun e => e.2.symm⟩

theorem memWrite_of_inBounds {s : State} {a : Int} (v : Int) (h : s.inBounds a) :
    s.memWrite a v = .ok (s.setCell a v) := if_pos h

/-- `Read`, in one equation. -/
theorem read_eq (s : State) (p : Param) : s.read p =
    if s.readable p then .ok (s.value p) else .error (.raise .addressOutOfBounds (some p.word)) := by
  obtain ⟨m, w⟩ := p
  cases m with
  | immediate => simp [State.read, State.value, State.readable]
  | position => simp [State.read, State.value, State.memRead, State.readable]

/-- `WriteTarget`, in one equation. -/
theorem writeTarget_eq (s : State) (p : Param) : s.writeTarget p =
    if s.writable p then .ok p.word
    else if p.mode = .immediate then .error (.raise .invalidWriteMode none)
    else .error (.raise .addressOutOfBounds (some p.word)) := by
  obtain ⟨m, w⟩ := p
  cases m <;> simp [State.writeTarget, State.writable]

theorem read_of_readable {s : State} {p : Param} (h : s.readable p) : s.read p = .ok (s.value p) := by
  rw [read_eq, if_pos h]

theorem read_of_not_readable {s : State} {p : Param} (h : ¬ s.readable p) :
    s.read p = .error (.raise .addressOutOfBounds (some p.word)) := by
  rw [read_eq, if_neg h]

theorem writeTarget_of_writable {s : State} {p : Param} (h : s.writable p) : s.writeTarget p = .ok p.word := by
  rw [writeTarget_eq, if_pos h]

theorem read_eq_ok {s : State} {p : Param} {w : Int} : s.read p = .ok w ↔ s.readable p ∧ w = s.value p := by
  by_cases h : s.readable p
  · rw [read_of_readable h]; simp only [Except.ok.injEq]; exact ⟨fun e => ⟨h, e.symm⟩, fun e => e.2.symm⟩
  · rw [read_of_not_readable h]; exact ⟨nofun, fun e => absurd e.1 h⟩

theorem read_eq_error {s : State} {p : Param} {e : Stop} :
    s.read p = .error e ↔ ¬ s.readable p ∧ e = .raise .addressOutOfBounds (some p.word) := by
  by_cases h : s.readable p
  · rw [read_of_readable h]; exact ⟨nofun, fun e => absurd h e.1⟩
  · rw [read_of_not_readable h]; simp only [Except.error.injEq]; exact ⟨fun e => ⟨h, e.symm⟩, fun e => e.2.symm⟩

theorem writeTarget_eq_ok {s : State} {p : Param} {d : Int} :
    s.writeTarget p = .ok d ↔ s.writable p ∧ d = p.word := by
  by_cases h : s.writable p
  · rw [writeTarget_of_writable h]; simp only [Except.ok.injEq]; exact ⟨fun e => ⟨h, e.symm⟩, fun e => e.2.symm⟩
  · rw [writeTarget_eq, if_neg h]
    refine ⟨fun e => ?_, fun e => absurd e.1 h⟩
    split at e <;> cases e

theorem writeTarget_eq_error {s : State} {p : Param} {e : Stop} : s.writeTarget p = .error e ↔
    (p.mode = .immediate ∧ e = .raise .invalidWriteMode none) ∨
    (p.mode = .position ∧ ¬ s.inBounds p.word ∧ e = .raise .addressOutOfBounds (some p.word)) := by
  obtain ⟨m, w⟩ := p
  cases m with
  | immediate => simp [State.writeTarget, eq_comm]
  | position =>
    by_cases h : s.inBounds w
    · simp only [State.writeTarget, if_pos h]; simp [h]
    · simp only [State.writeTarget, if_neg h]; simp [h, eq_comm]

/-! ### Control and ports -/

theorem jumpTo_eq_ok {s : State} {a : Int} {t : State} :
    s.jumpTo a = .ok t ↔ s.inBounds a ∧ t = { s with ip := a } := by
  by_cases h : s.inBounds a
  · simp only [State.jumpTo, if_pos h, Except.ok.injEq]; exact ⟨fun e => ⟨h, e.symm⟩, fun e => e.2.symm⟩
  · simp only [State.jumpTo, if_neg h]; exact ⟨nofun, fun e => absurd e.1 h⟩

theorem jumpTo_eq_error {s : State} {a : Int} {e : Stop} :
    s.jumpTo a = .error e ↔ ¬ s.inBounds a ∧ e = .raise .addressOutOfBounds (some a) := by
  by_cases h : s.inBounds a
  · simp only [State.jumpTo, if_pos h]; exact ⟨nofun, fun e => absurd h e.1⟩
  · simp only [State.jumpTo, if_neg h, Except.error.injEq]; exact ⟨fun e => ⟨h, e.symm⟩, fun e => e.2.symm⟩

theorem inPop_eq_ok {s : State} {r : Int × State} :
    s.inPop = .ok r ↔ s.inQueue = r.1 :: r.2.inQueue ∧ r.2 = { s with inQueue := r.2.inQueue } := by
  obtain ⟨v, t⟩ := r
  unfold State.inPop
  cases hq : s.inQueue with
  | nil => simp only; split <;> simp
  | cons x xs =>
    simp only [Except.ok.injEq, Prod.mk.injEq, List.cons.injEq]
    constructor
    · rintro ⟨rfl, rfl⟩; simp
    · rintro ⟨⟨rfl, rfl⟩, h⟩; exact ⟨rfl, h.symm⟩

theorem inPop_eq_error {s : State} {e : Stop} : s.inPop = .error e ↔
    s.inQueue = [] ∧ ((s.inClosed = true ∧ e = .raise .inputExhausted none) ∨ (s.inClosed = false ∧ e = .hold)) := by
  unfold State.inPop
  cases hq : s.inQueue with
  | cons x xs => simp
  | nil => cases hc : s.inClosed <;> simp [eq_comm]

/-! ### The end of a Step -/

/-- Whatever an attempt gives, the Step has a next state. -/
theorem finish_eq (s : State) (r : Except Stop State) : s.finish r = .next
    (match r with
    | .ok t => t
    | .error (.raise k o) => s.takeFault k o
    | .error .hold => s) := by
  rcases r with (_ | _) | _ <;> rfl

theorem finish_eq_next {s t : State} {r : Except Stop State} (h : s.finish r = .next t) :
    r = .ok t ∨ (∃ k o, r = .error (.raise k o) ∧ t = s.takeFault k o) ∨ (r = .error .hold ∧ t = s) := by
  rcases r with (⟨k, o⟩ | _) | u
  · simp only [finish_raise, Host.Outcome.next.injEq] at h
    exact .inr (.inl ⟨k, o, rfl, h.symm⟩)
  · simp only [finish_hold, Host.Outcome.next.injEq] at h
    exact .inr (.inr ⟨rfl, h.symm⟩)
  · simp only [finish_ok, Host.Outcome.next.injEq] at h
    exact .inl (by rw [h])

end Sys2Proof.Machine
end

