-- ==== Sys2Proof/Laws/Exec.lean ====
section
/-! SUPPORT. What the attempt of each shape of instruction can do: when it completes and with which state, and when it
stops and how. The nine meanings are these attempts, ended by `State.finish`. -/

namespace Sys2Proof.Machine

/-- A two-operand attempt completes exactly when both operands can be read and the target can be written; it then writes
the target and advances by 4. -/
theorem attemptBinary_eq_ok {f : Int → Int → Int} {a b dst : Param} {s t : State} :
    attemptBinary f a b dst s = .ok t ↔ s.readable a ∧ s.readable b ∧ s.writable dst ∧
      t = (s.setCell dst.word (f (s.value a) (s.value b))).advance 4 := by
  simp only [attemptBinary, bind_eq_ok, read_eq_ok, writeTarget_eq_ok, except_pure]
  constructor
  · rintro ⟨x, ⟨ha, rfl⟩, y, ⟨hb, rfl⟩, d, ⟨hd, rfl⟩, u, hu, ht⟩
    rw [memWrite_of_inBounds _ hd.2] at hu
    cases hu
    exact ⟨ha, hb, hd, (Except.ok.inj ht).symm⟩
  · rintro ⟨ha, hb, hd, rfl⟩
    exact ⟨_, ⟨ha, rfl⟩, _, ⟨hb, rfl⟩, _, ⟨hd, rfl⟩, _, memWrite_of_inBounds _ hd.2, rfl⟩

/-- A two-operand attempt stops with its first failing check: the first operand, the second, the write target. -/
theorem attemptBinary_eq_error {f : Int → Int → Int} {a b dst : Param} {s : State} {e : Stop} :
    attemptBinary f a b dst s = .error e ↔
      (¬ s.readable a ∧ e = .raise .addressOutOfBounds (some a.word)) ∨
      (s.readable a ∧ ¬ s.readable b ∧ e = .raise .addressOutOfBounds (some b.word)) ∨
      (s.readable a ∧ s.readable b ∧ s.writeTarget dst = .error e) := by
  simp only [attemptBinary, bind_eq_error, read_eq_ok, read_eq_error, writeTarget_eq_ok, except_pure, reduceCtorEq,
    and_false, exists_false, or_false]
  refine or_congr_right ⟨?_, ?_⟩
  · rintro ⟨x, ⟨ha, rfl⟩, ⟨hb, rfl⟩ | ⟨y, ⟨hb, rfl⟩, hd | ⟨d, ⟨hd, rfl⟩, hw⟩⟩⟩
    · exact .inl ⟨ha, hb, rfl⟩
    · exact .inr ⟨ha, hb, hd⟩
    · rw [memWrite_of_inBounds _ hd.2] at hw
      cases hw
  · rintro (⟨ha, hb, rfl⟩ | ⟨ha, hb, hd⟩)
    · exact ⟨_, ⟨ha, rfl⟩, .inl ⟨hb, rfl⟩⟩
    · exact ⟨_, ⟨ha, rfl⟩, .inr ⟨_, ⟨hb, rfl⟩, .inl hd⟩⟩

/-- IN completes exactly when its target can be written and the queue holds a value; it then takes that value, writes the
target and advances by 2. -/
theorem attemptIn_eq_ok {dst : Param} {s t : State} : attemptIn dst s = .ok t ↔
    s.writable dst ∧ ∃ v vs, s.inQueue = v :: vs ∧ t = ({ s with inQueue := vs }.setCell dst.word v).advance 2 := by
  simp only [attemptIn, bind_eq_ok, writeTarget_eq_ok, inPop_eq_ok, except_pure]
  constructor
  · rintro ⟨d, ⟨hd, rfl⟩, ⟨v, u⟩, ⟨hq, hu⟩, x, hx, ht⟩
    simp only at hq hu hx
    have hin : u.inBounds dst.word := by rw [hu]; exact hd.2
    rw [memWrite_of_inBounds _ hin] at hx
    cases hx
    refine ⟨hd, v, u.inQueue, hq, ?_⟩
    rw [← Except.ok.inj ht, ← hu]
  · rintro ⟨hd, v, vs, hq, rfl⟩
    refine ⟨_, ⟨hd, rfl⟩, (v, { s with inQueue := vs }), ⟨hq, rfl⟩, _, ?_, rfl⟩
    exact memWrite_of_inBounds _ hd.2

/-- IN stops on its target, and after that on the input port: exhausted when closed, a hold when open. -/
theorem attemptIn_eq_error {dst : Param} {s : State} {e : Stop} : attemptIn dst s = .error e ↔
    s.writeTarget dst = .error e ∨ (s.writable dst ∧ s.inPop = .error e) := by
  simp only [attemptIn, bind_eq_error, writeTarget_eq_ok, except_pure, reduceCtorEq, and_false, exists_false, or_false]
  constructor
  · rintro (h | ⟨d, ⟨hd, rfl⟩, h | ⟨⟨v, u⟩, hp, hw⟩⟩)
    · exact .inl h
    · exact .inr ⟨hd, h⟩
    · obtain ⟨-, hu⟩ := inPop_eq_ok.1 hp
      simp only at hu hw
      have hin : u.inBounds dst.word := by rw [hu]; exact hd.2
      rw [memWrite_of_inBounds _ hin] at hw
      cases hw
  · rintro (h | ⟨hd, h⟩)
    · exact .inl h
    · exact .inr ⟨_, ⟨hd, rfl⟩, .inl h⟩

/-- OUT completes exactly when its operand can be read. -/
theorem attemptOut_eq_ok {a : Param} {s t : State} :
    attemptOut a s = .ok t ↔ s.readable a ∧ t = (s.outPush (s.value a)).advance 2 := by
  simp only [attemptOut, bind_eq_ok, read_eq_ok, except_pure, Except.ok.injEq]
  exact ⟨fun ⟨_, ⟨h, e⟩, ht⟩ => ⟨h, by rw [← ht, e]⟩, fun ⟨h, e⟩ => ⟨_, ⟨h, rfl⟩, e.symm⟩⟩

theorem attemptOut_eq_error {a : Param} {s : State} {e : Stop} :
    attemptOut a s = .error e ↔ ¬ s.readable a ∧ e = .raise .addressOutOfBounds (some a.word) := by
  simp only [attemptOut, bind_eq_error, read_eq_error, except_pure, reduceCtorEq, and_false, exists_false, or_false]

/-- A jump completes exactly when both parameters can be read and, if it is taken, the target's value names a cell. -/
theorem attemptJump_eq_ok {taken : Int → Bool} {a target : Param} {s t : State} :
    attemptJump taken a target s = .ok t ↔ s.readable a ∧ s.readable target ∧
      ((taken (s.value a) = true ∧ s.inBounds (s.value target) ∧ t = { s with ip := s.value target }) ∨
       (taken (s.value a) = false ∧ t = s.advance 3)) := by
  simp only [attemptJump, bind_eq_ok, read_eq_ok, except_pure]
  constructor
  · rintro ⟨x, ⟨ha, rfl⟩, y, ⟨hb, rfl⟩, h⟩
    refine ⟨ha, hb, ?_⟩
    split at h
    · obtain ⟨hi, ht⟩ := jumpTo_eq_ok.1 h
      exact .inl ⟨‹_›, hi, ht⟩
    · rename_i hk
      exact .inr ⟨by simpa using hk, (Except.ok.inj h).symm⟩
  · rintro ⟨ha, hb, h⟩
    refine ⟨_, ⟨ha, rfl⟩, _, ⟨hb, rfl⟩, ?_⟩
    rcases h with ⟨hk, hi, rfl⟩ | ⟨hk, rfl⟩
    · rw [if_pos hk]; exact jumpTo_eq_ok.2 ⟨hi, rfl⟩
    · simp [hk]

/-- A jump stops with its first failing check: the condition operand, the target operand (read even when the jump is not
taken), a taken target outside memory. -/
theorem attemptJump_eq_error {taken : Int → Bool} {a target : Param} {s : State} {e : Stop} :
    attemptJump taken a target s = .error e ↔
      (¬ s.readable a ∧ e = .raise .addressOutOfBounds (some a.word)) ∨
      (s.readable a ∧ ¬ s.readable target ∧ e = .raise .addressOutOfBounds (some target.word)) ∨
      (s.readable a ∧ s.readable target ∧ taken (s.value a) = true ∧ ¬ s.inBounds (s.value target) ∧
        e = .raise .addressOutOfBounds (some (s.value target))) := by
  simp only [attemptJump, bind_eq_error, read_eq_ok, read_eq_error, except_pure]
  refine or_congr_right ⟨?_, ?_⟩
  · rintro ⟨x, ⟨ha, rfl⟩, ⟨hb, rfl⟩ | ⟨y, ⟨hb, rfl⟩, h⟩⟩
    · exact .inl ⟨ha, hb, rfl⟩
    · split at h
      · rename_i hk
        obtain ⟨hi, he⟩ := jumpTo_eq_error.1 h
        exact .inr ⟨ha, hb, hk, hi, he⟩
      · cases h
  · rintro (⟨ha, hb, rfl⟩ | ⟨ha, hb, hk, hi, rfl⟩)
    · exact ⟨_, ⟨ha, rfl⟩, .inl ⟨hb, rfl⟩⟩
    · refine ⟨_, ⟨ha, rfl⟩, .inr ⟨_, ⟨hb, rfl⟩, ?_⟩⟩
      rw [if_pos hk]
      exact jumpTo_eq_error.2 ⟨hi, rfl⟩

/-! ### The attempt of an instruction -/

/-- What `exec` attempts, before `State.finish` ends it. -/
def attempt (i : Instr) (s : State) : Except Stop State :=
  match i with
  | .add a b dst => attemptBinary addWord a b dst s
  | .mul a b dst => attemptBinary mulWord a b dst s
  | .inp dst => attemptIn dst s
  | .out a => attemptOut a s
  | .jt a target => attemptJump isNonzero a target s
  | .jf a target => attemptJump isZero a target s
  | .lt a b dst => attemptBinary ltWord a b dst s
  | .eq a b dst => attemptBinary eqWord a b dst s
  | .hlt => .ok { s with status := .halted }

theorem exec_eq_finish (i : Instr) (s : State) : exec i s = s.finish (attempt i s) := by
  cases i <;> rfl


end Sys2Proof.Machine
end

