-- ==== Sys2Proof/Laws/Step.lean ====
section
/-! SUPPORT. What the fetch part of a Step can do, and the Step of a running engine as one attempt. -/

namespace Sys2Proof.Machine

theorem decodeOrRaise_eq_ok {w : Int} {h : Header} : decodeOrRaise w = .ok h ↔ decodeWord w = .ok h := by
  unfold decodeOrRaise
  cases decodeWord w <;> simp

theorem decodeOrRaise_eq_error {w : Int} {e : Stop} : decodeOrRaise w = .error e ↔
    ∃ x, decodeWord w = .error x ∧ e = .raise (kindOfWordError x) none := by
  unfold decodeOrRaise
  cases decodeWord w <;> simp [eq_comm]

/-- The parameter fetch completes exactly with the words that stand there. -/
theorem fetchParams_eq_ok {s : State} {a : Int} {n : Nat} {ps : List Int} :
    s.fetchParams a n = .ok ps ↔ ps.length = n ∧ s.holdsAt a ps := by
  induction n generalizing a ps with
  | zero =>
    cases ps with
    | nil => simp [State.fetchParams, State.holdsAt]
    | cons p ps => simp [State.fetchParams]
  | succ n ih =>
    simp only [State.fetchParams, bind_eq_ok, ih, except_pure, Except.ok.injEq]
    constructor
    · rintro ⟨p, hp, qs, ⟨hl, hq⟩, rfl⟩
      exact ⟨by simp [hl], hp, hq⟩
    · cases ps with
      | nil => rintro ⟨h, -⟩; cases h
      | cons p ps => rintro ⟨hl, hp, hq⟩; exact ⟨p, hp, ps, ⟨by simpa using hl, hq⟩, rfl⟩

/-- The parameter fetch stops at the first word that memory does not have. -/
theorem fetchParams_eq_error {s : State} {a : Int} {n : Nat} {e : Stop} : s.fetchParams a n = .error e ↔
    ∃ k : Nat, k < n ∧ (∀ j : Nat, j < k → s.inBounds (a + j)) ∧ ¬ s.inBounds (a + k) ∧
      e = .raise .addressOutOfBounds (some (a + k)) := by
  induction n generalizing a with
  | zero => simp [State.fetchParams]
  | succ n ih =>
    simp only [State.fetchParams, bind_eq_error, memRead_eq_error, memRead_eq_ok, ih, except_pure, reduceCtorEq,
      and_false, exists_false, or_false]
    constructor
    · rintro (⟨h, rfl⟩ | ⟨p, ⟨h, rfl⟩, k, hk, hj, hn, rfl⟩)
      · exact ⟨0, by omega, by omega, by simpa using h, by simp⟩
      · have e1 : a + 1 + (k : Int) = a + ((k + 1 : Nat) : Int) := by push_cast; ring
        refine ⟨k + 1, by omega, fun j hj' => ?_, by rwa [← e1], by rw [e1]⟩
        cases j with
        | zero => simpa using h
        | succ j =>
          have := hj j (by omega)
          have e2 : a + 1 + (j : Int) = a + ((j + 1 : Nat) : Int) := by push_cast; ring
          rwa [e2] at this
    · rintro ⟨k, hk, hj, hn, rfl⟩
      cases k with
      | zero => exact .inl ⟨by simpa using hn, by simp⟩
      | succ k =>
        have h0 : s.inBounds a := by simpa using hj 0 (by omega)
        have e1 : a + ((k + 1 : Nat) : Int) = a + 1 + (k : Int) := by push_cast; ring
        refine .inr ⟨_, ⟨h0, rfl⟩, k, by omega, fun j hj' => ?_, by rwa [← e1], by rw [e1]⟩
        have := hj (j + 1) (by omega)
        have e2 : a + ((j + 1 : Nat) : Int) = a + 1 + (j : Int) := by push_cast; ring
        rwa [e2] at this

/-- The fetch part completes exactly when the word decodes and its parameter words stand behind it. -/
theorem fetch_eq_ok {s : State} {i : Instr} : s.fetch = .ok i ↔ ∃ w h ps, s.memRead s.ip = .ok w ∧
    decodeWord w = .ok h ∧ ps.length = h.op.arity ∧ s.holdsAt (s.ip + 1) ps ∧ i = h.toInstr ps := by
  simp only [State.fetch, bind_eq_ok, decodeOrRaise_eq_ok, fetchParams_eq_ok, except_pure, Except.ok.injEq]
  constructor
  · rintro ⟨w, hw, h, hh, ps, ⟨hl, hp⟩, rfl⟩
    exact ⟨w, h, ps, hw, hh, hl, hp, rfl⟩
  · rintro ⟨w, h, ps, hw, hh, hl, hp, rfl⟩
    exact ⟨w, hw, h, hh, ps, ⟨hl, hp⟩, rfl⟩

/-- The fetch part stops with the first of: the word's address, the word's decoding, the parameters' addresses. -/
theorem fetch_eq_error {s : State} {e : Stop} : s.fetch = .error e ↔
    (¬ s.inBounds s.ip ∧ e = .raise .addressOutOfBounds (some s.ip)) ∨
    (∃ w x, s.memRead s.ip = .ok w ∧ decodeWord w = .error x ∧ e = .raise (kindOfWordError x) none) ∨
    (∃ w h, s.memRead s.ip = .ok w ∧ decodeWord w = .ok h ∧ s.fetchParams (s.ip + 1) h.op.arity = .error e) := by
  simp only [State.fetch, bind_eq_error, memRead_eq_error, decodeOrRaise_eq_ok, decodeOrRaise_eq_error, except_pure,
    reduceCtorEq, and_false, exists_false, or_false]
  refine or_congr_right ⟨?_, ?_⟩
  · rintro ⟨w, hw, ⟨x, hx, rfl⟩ | ⟨h, hh, hp⟩⟩
    · exact .inl ⟨w, x, hw, hx, rfl⟩
    · exact .inr ⟨w, h, hw, hh, hp⟩
  · rintro (⟨w, x, hw, hx, rfl⟩ | ⟨w, h, hw, hh, hp⟩)
    · exact ⟨w, hw, .inl ⟨x, hx, rfl⟩⟩
    · exact ⟨w, hw, .inr ⟨h, hh, hp⟩⟩

/-- What the Step of a running engine attempts. -/
def attemptStep (s : State) : Except Stop State := s.fetch >>= fun i => attempt i s

/-- The Step of a running engine is its attempt, ended. -/
theorem step_of_running {s : State} (h : s.status = .running) : step s = s.finish (attemptStep s) := by
  unfold step attemptStep
  rw [h]
  cases s.fetch with
  | error e => rfl
  | ok i => simp only [except_ok_bind]; exact exec_eq_finish i s

/-- An instruction completes in one of these ways (the inversion of `attempt`). -/
theorem attempt_eq_ok {i : Instr} {s t : State} (h : attempt i s = .ok t) :
    (∃ (f : Int → Int → Int) (a b dst : Param), (i = .add a b dst ∨ i = .mul a b dst ∨ i = .lt a b dst ∨ i = .eq a b dst) ∧
      s.writable dst ∧ t = (s.setCell dst.word (f (s.value a) (s.value b))).advance 4) ∨
    (∃ dst v vs, i = .inp dst ∧ s.writable dst ∧ s.inQueue = v :: vs ∧
      t = ({ s with inQueue := vs }.setCell dst.word v).advance 2) ∨
    (∃ a, i = .out a ∧ t = (s.outPush (s.value a)).advance 2) ∨
    (∃ a target, (i = .jt a target ∨ i = .jf a target) ∧
      ((s.inBounds (s.value target) ∧ t = { s with ip := s.value target }) ∨ t = s.advance 3)) ∨
    (i = .hlt ∧ t = { s with status := .halted }) := by
  cases i with
  | add a b dst =>
    obtain ⟨-, -, hd, rfl⟩ := attemptBinary_eq_ok.1 h
    exact .inl ⟨addWord, a, b, dst, .inl rfl, hd, rfl⟩
  | mul a b dst =>
    obtain ⟨-, -, hd, rfl⟩ := attemptBinary_eq_ok.1 h
    exact .inl ⟨mulWord, a, b, dst, .inr (.inl rfl), hd, rfl⟩
  | lt a b dst =>
    obtain ⟨-, -, hd, rfl⟩ := attemptBinary_eq_ok.1 h
    exact .inl ⟨ltWord, a, b, dst, .inr (.inr (.inl rfl)), hd, rfl⟩
  | eq a b dst =>
    obtain ⟨-, -, hd, rfl⟩ := attemptBinary_eq_ok.1 h
    exact .inl ⟨eqWord, a, b, dst, .inr (.inr (.inr rfl)), hd, rfl⟩
  | inp dst =>
    obtain ⟨hd, v, vs, hq, rfl⟩ := attemptIn_eq_ok.1 h
    exact .inr (.inl ⟨dst, v, vs, rfl, hd, hq, rfl⟩)
  | out a =>
    obtain ⟨-, rfl⟩ := attemptOut_eq_ok.1 h
    exact .inr (.inr (.inl ⟨a, rfl, rfl⟩))
  | jt a target =>
    obtain ⟨-, -, ⟨-, hi, rfl⟩ | ⟨-, rfl⟩⟩ := attemptJump_eq_ok.1 h
    · exact .inr (.inr (.inr (.inl ⟨a, target, .inl rfl, .inl ⟨hi, rfl⟩⟩)))
    · exact .inr (.inr (.inr (.inl ⟨a, target, .inl rfl, .inr rfl⟩)))
  | jf a target =>
    obtain ⟨-, -, ⟨-, hi, rfl⟩ | ⟨-, rfl⟩⟩ := attemptJump_eq_ok.1 h
    · exact .inr (.inr (.inr (.inl ⟨a, target, .inr rfl, .inl ⟨hi, rfl⟩⟩)))
    · exact .inr (.inr (.inr (.inl ⟨a, target, .inr rfl, .inr rfl⟩)))
  | hlt => exact .inr (.inr (.inr (.inr ⟨rfl, (Except.ok.inj h).symm⟩)))

/-- An instruction stops in one of these ways: AddressOutOfBounds with an address outside memory, the write-mode fault of
an ill-formed instruction, or IN on an empty queue. -/
theorem attempt_eq_error {i : Instr} {s : State} {e : Stop} (h : attempt i s = .error e) :
    (∃ a, ¬ s.inBounds a ∧ e = .raise .addressOutOfBounds (some a)) ∨
    (i.wellFormed = false ∧ e = .raise .invalidWriteMode none) ∨
    (∃ dst, i = .inp dst ∧ s.writable dst ∧ s.inQueue = [] ∧
      ((s.inClosed = true ∧ e = .raise .inputExhausted none) ∨ (s.inClosed = false ∧ e = .hold))) := by
  have hr : ∀ {p : Param}, ¬ s.readable p → ¬ s.inBounds p.word := fun hp hi => hp fun _ => hi
  have hb : ∀ {f a b dst}, i = .add a b dst ∨ i = .mul a b dst ∨ i = .lt a b dst ∨ i = .eq a b dst →
      attemptBinary f a b dst s = .error e →
      (∃ a, ¬ s.inBounds a ∧ e = .raise .addressOutOfBounds (some a)) ∨
      (i.wellFormed = false ∧ e = .raise .invalidWriteMode none) := by
    intro f a b dst hi hx
    rcases attemptBinary_eq_error.1 hx with ⟨ha, rfl⟩ | ⟨-, hb, rfl⟩ | ⟨-, -, hd⟩
    · exact .inl ⟨_, hr ha, rfl⟩
    · exact .inl ⟨_, hr hb, rfl⟩
    · rcases writeTarget_eq_error.1 hd with ⟨hm, rfl⟩ | ⟨-, hn, rfl⟩
      · refine .inr ⟨?_, rfl⟩
        rcases hi with rfl | rfl | rfl | rfl <;>
          simp [Instr.wellFormed, Instr.params, Instr.opcode, Opcode.roles, Param.fits, hm]
      · exact .inl ⟨_, hn, rfl⟩
  cases i with
  | add a b dst => exact (hb (.inl rfl) h).elim .inl fun h => .inr (.inl h)
  | mul a b dst => exact (hb (.inr (.inl rfl)) h).elim .inl fun h => .inr (.inl h)
  | lt a b dst => exact (hb (.inr (.inr (.inl rfl))) h).elim .inl fun h => .inr (.inl h)
  | eq a b dst => exact (hb (.inr (.inr (.inr rfl))) h).elim .inl fun h => .inr (.inl h)
  | inp dst =>
    rcases attemptIn_eq_error.1 h with hd | ⟨hd, hp⟩
    · rcases writeTarget_eq_error.1 hd with ⟨hm, rfl⟩ | ⟨-, hn, rfl⟩
      · exact .inr (.inl ⟨by simp [Instr.wellFormed, Instr.params, Instr.opcode, Opcode.roles, Param.fits, hm], rfl⟩)
      · exact .inl ⟨_, hn, rfl⟩
    · obtain ⟨hq, hc⟩ := inPop_eq_error.1 hp
      exact .inr (.inr ⟨dst, rfl, hd, hq, hc⟩)
  | out a =>
    obtain ⟨ha, rfl⟩ := attemptOut_eq_error.1 h
    exact .inl ⟨_, hr ha, rfl⟩
  | jt a target =>
    rcases attemptJump_eq_error.1 h with ⟨ha, rfl⟩ | ⟨-, ht, rfl⟩ | ⟨-, -, -, hn, rfl⟩
    · exact .inl ⟨_, hr ha, rfl⟩
    · exact .inl ⟨_, hr ht, rfl⟩
    · exact .inl ⟨_, hn, rfl⟩
  | jf a target =>
    rcases attemptJump_eq_error.1 h with ⟨ha, rfl⟩ | ⟨-, ht, rfl⟩ | ⟨-, -, -, hn, rfl⟩
    · exact .inl ⟨_, hr ha, rfl⟩
    · exact .inl ⟨_, hr ht, rfl⟩
    · exact .inl ⟨_, hn, rfl⟩
  | hlt => cases h

/-- A header that `Decode` accepts gives a well-formed instruction. -/
theorem wellFormed_toInstr {h : Header} (hl : h.legal) (ps : List Int) : (h.toInstr ps).wellFormed = true := by
  obtain ⟨op, m1, m2, m3⟩ := h
  obtain ⟨-, -, -, ht⟩ := hl
  cases op <;> cases m1 <;> cases m3 <;>
    simp_all [Header.immediateTarget, Header.toInstr, Instr.wellFormed, Instr.params, Instr.opcode, Opcode.roles,
      Param.fits]

end Sys2Proof.Machine
end

