-- ==== Sys2Proof/Laws/Interface.lean ====
section
/-! SUPPORT. Laws of the host's side: the next state of a Step, the reset, the input port. -/

namespace Sys2Proof.Machine

theorem stepNext_of_step {s t : State} (h : step s = .next t) : s.stepNext = t := by
  unfold State.stepNext
  rw [h]

section
variable (image inInit : List Int) (c : Bool)

@[simp] theorem resetWith_N : (State.resetWith image inInit c).N = image.length := rfl
@[simp] theorem resetWith_mem : (State.resetWith image inInit c).mem = Memory.ofWordsFrom 0 image := rfl
@[simp] theorem resetWith_ip : (State.resetWith image inInit c).ip = 0 := rfl
@[simp] theorem resetWith_status : (State.resetWith image inInit c).status = .running := rfl
@[simp] theorem resetWith_fault : (State.resetWith image inInit c).fault = none := rfl
@[simp] theorem resetWith_inQueue : (State.resetWith image inInit c).inQueue = inInit := rfl
@[simp] theorem resetWith_inClosed : (State.resetWith image inInit c).inClosed = c := rfl
@[simp] theorem resetWith_outLog : (State.resetWith image inInit c).outLog = [] := rfl

/-- A cell after reset holds the image's word. -/
theorem resetWith_cell (k : Nat) : (State.resetWith image inInit c).cell k = image.getD k Config.unlisted := by
  have := get_ofWordsFrom 0 k image
  rw [Nat.zero_add] at this
  simpa [State.cell] using this
end

/-- The interface's reset state is the parametrised reset at the arguments that log 2 names. -/
theorem reset_eq_resetWith : State.reset = State.resetWith [] [] false := rfl

theorem hostAppend_eq_ok {s t : State} {v : Int} :
    s.hostAppend v = .ok t ↔ s.inClosed = false ∧ t = { s with inQueue := s.inQueue ++ [v] } := by
  unfold State.hostAppend
  cases s.inClosed <;> simp [eq_comm]

theorem hostClose_eq_ok {s t : State} :
    s.hostClose = .ok t ↔ s.inClosed = false ∧ t = { s with inClosed := true } := by
  unfold State.hostClose
  cases s.inClosed <;> simp [eq_comm]

end Sys2Proof.Machine
end

