-- ==== Sys2Proof/Laws/PerInstr.lean ====
section
/-! SUPPORT. Statements about every instruction as syntax, one lemma for each constructor. -/

/-- The words of an instruction are as many as its opcode's length says, 1 to 4 (30_encoding.md R43, R44). -/
def Sys2Proof.Laws.EncodedLength.Statement (i : Sys2Proof.Instr) : Prop :=
  (Sys2Proof.encode i).length = i.opcode.length ∧ 1 ≤ i.opcode.length ∧ i.opcode.length ≤ Sys2Proof.Config.maxLength

/-- The instruction word of a well-formed instruction decodes to its opcode (30_encoding.md R46, R53). -/
def Sys2Proof.Laws.LegalWord.Statement (i : Sys2Proof.Instr) : Prop :=
  i.wellFormed = true → ∃ h, Sys2Proof.decodeWord (Sys2Proof.encodeWord i) = .ok h ∧ h.op = i.opcode

namespace Sys2Proof.Laws.EncodedLength

theorem of_opcode (i : Instr) : Statement i :=
  ⟨encode_length i, by cases i.opcode <;> decide, by cases i.opcode <;> decide⟩

theorem add (a b dst : Param) : Statement (.add a b dst) := of_opcode _
theorem mul (a b dst : Param) : Statement (.mul a b dst) := of_opcode _
theorem inp (dst : Param) : Statement (.inp dst) := of_opcode _
theorem out (a : Param) : Statement (.out a) := of_opcode _
theorem jt (a target : Param) : Statement (.jt a target) := of_opcode _
theorem jf (a target : Param) : Statement (.jf a target) := of_opcode _
theorem lt (a b dst : Param) : Statement (.lt a b dst) := of_opcode _
theorem eq (a b dst : Param) : Statement (.eq a b dst) := of_opcode _
theorem hlt : Statement .hlt := of_opcode _

end Sys2Proof.Laws.EncodedLength

namespace Sys2Proof.Laws.LegalWord

/-- The word of a two-source instruction with a write target. -/
theorem of_binary {op : Opcode} (hop : op = .add ∨ op = .mul ∨ op = .lt ∨ op = .eq) {m1 m2 : Mode} {w : Int}
    (hw : w = ((op.code + (100 * m1.digit + (1000 * m2.digit + (10000 * 0 + 0))) : Nat) : Int)) :
    ∃ h, decodeWord w = .ok h ∧ h.op = op := by
  refine ⟨⟨op, m1, m2, .position⟩, decodeWord_eq_ok.2 ⟨?_, ?_⟩, rfl⟩
  · subst hw; simp only [Header.word, Mode.digit]; congr 1; omega
  · rcases hop with rfl | rfl | rfl | rfl <;> simp [Header.legal, Opcode.arity, Opcode.roles, Header.immediateTarget]

theorem add (a b dst : Param) : Statement (.add a b dst) := by
  intro hwf
  have hd : dst.mode = .position := by
    simpa [Instr.wellFormed, Instr.params, Instr.opcode, Opcode.roles, Param.fits] using hwf
  exact of_binary (.inl rfl) (m1 := a.mode) (m2 := b.mode)
    (by simp only [encodeWord, Instr.params, Instr.opcode, modeDigits, hd]; rfl)

theorem mul (a b dst : Param) : Statement (.mul a b dst) := by
  intro hwf
  have hd : dst.mode = .position := by
    simpa [Instr.wellFormed, Instr.params, Instr.opcode, Opcode.roles, Param.fits] using hwf
  exact of_binary (.inr (.inl rfl)) (m1 := a.mode) (m2 := b.mode)
    (by simp only [encodeWord, Instr.params, Instr.opcode, modeDigits, hd]; rfl)

theorem lt (a b dst : Param) : Statement (.lt a b dst) := by
  intro hwf
  have hd : dst.mode = .position := by
    simpa [Instr.wellFormed, Instr.params, Instr.opcode, Opcode.roles, Param.fits] using hwf
  exact of_binary (.inr (.inr (.inl rfl))) (m1 := a.mode) (m2 := b.mode)
    (by simp only [encodeWord, Instr.params, Instr.opcode, modeDigits, hd]; rfl)

theorem eq (a b dst : Param) : Statement (.eq a b dst) := by
  intro hwf
  have hd : dst.mode = .position := by
    simpa [Instr.wellFormed, Instr.params, Instr.opcode, Opcode.roles, Param.fits] using hwf
  exact of_binary (.inr (.inr (.inr rfl))) (m1 := a.mode) (m2 := b.mode)
    (by simp only [encodeWord, Instr.params, Instr.opcode, modeDigits, hd]; rfl)

theorem inp (dst : Param) : Statement (.inp dst) := by
  intro hwf
  have hd : dst.mode = .position := by
    simpa [Instr.wellFormed, Instr.params, Instr.opcode, Opcode.roles, Param.fits] using hwf
  exact ⟨⟨.inp, .position, .position, .position⟩, decodeWord_eq_ok.2
    ⟨by simp [encodeWord, Instr.params, Instr.opcode, modeDigits, hd, Header.word, Mode.digit], by decide⟩, rfl⟩

theorem out (a : Param) : Statement (.out a) := fun _ =>
  ⟨⟨.out, a.mode, .position, .position⟩, decodeWord_eq_ok.2
    ⟨by simp [encodeWord, Instr.params, Instr.opcode, modeDigits, Header.word, Mode.digit],
      by simp [Header.legal, Opcode.arity, Opcode.roles, Header.immediateTarget]⟩, rfl⟩

theorem jt (a target : Param) : Statement (.jt a target) := fun _ =>
  ⟨⟨.jt, a.mode, target.mode, .position⟩, decodeWord_eq_ok.2
    ⟨by simp [encodeWord, Instr.params, Instr.opcode, modeDigits, Header.word, Mode.digit, add_assoc],
      by simp [Header.legal, Opcode.arity, Opcode.roles, Header.immediateTarget]⟩, rfl⟩

theorem jf (a target : Param) : Statement (.jf a target) := fun _ =>
  ⟨⟨.jf, a.mode, target.mode, .position⟩, decodeWord_eq_ok.2
    ⟨by simp [encodeWord, Instr.params, Instr.opcode, modeDigits, Header.word, Mode.digit, add_assoc],
      by simp [Header.legal, Opcode.arity, Opcode.roles, Header.immediateTarget]⟩, rfl⟩

theorem hlt : Statement .hlt := fun _ => ⟨⟨.hlt, .position, .position, .position⟩, by decide, rfl⟩

end Sys2Proof.Laws.LegalWord
end

