-- ==== Sys2Proof/Tests/Slice0.lean ====
section
/-! SUPPORT. Tests of the model. Every expected value comes from spec/95_test_vectors.md, from the rule that a test's
docstring names, or from an encoding written out by hand from 30_encoding.md. Then, for every obligation that has
hypotheses, a witness that meets them. -/

namespace Sys2Proof.Tests

open Sys2Proof Sys2Proof.Machine

/-- The engine right after a reset with this image, the port closed and empty. -/
def mk (image : List Int) : State := State.resetWith image [] true

/-- The same with an input sequence and a closed flag. -/
def mkIn (image queue : List Int) (closed : Bool) : State := State.resetWith image queue closed

/-! ### Well-formedness: the one check refuses each ill-formed shape -/

theorem test_wf_add_immediate_target : (Instr.add (.imm 1) (.imm 1) (.imm 0)).wellFormed = false := by decide
theorem test_wf_mul_immediate_target : (Instr.mul (.pos 1) (.imm 1) (.imm 0)).wellFormed = false := by decide
theorem test_wf_lt_immediate_target : (Instr.lt (.pos 1) (.pos 1) (.imm 0)).wellFormed = false := by decide
theorem test_wf_eq_immediate_target : (Instr.eq (.imm 1) (.pos 1) (.imm 0)).wellFormed = false := by decide
theorem test_wf_in_immediate_target : (Instr.inp (.imm 0)).wellFormed = false := by decide
theorem test_wf_accepts :
    (Instr.add (.imm 1) (.pos 1) (.pos 0)).wellFormed = true ∧ (Instr.inp (.pos 0)).wellFormed = true ∧
    (Instr.jt (.imm 1) (.imm 0)).wellFormed = true := by decide

/-! ### Decoding -/

/-- The mode digits of the words of 95_test_vectors.md section 2.1 that decode. -/
theorem test_decode_words :
    decodeWord 1 = .ok ⟨.add, .position, .position, .position⟩ ∧
    decodeWord 3 = .ok ⟨.inp, .position, .position, .position⟩ ∧
    decodeWord 99 = .ok ⟨.hlt, .position, .position, .position⟩ ∧
    decodeWord 104 = .ok ⟨.out, .immediate, .position, .position⟩ ∧
    decodeWord 108 = .ok ⟨.eq, .immediate, .position, .position⟩ ∧
    decodeWord 1002 = .ok ⟨.mul, .position, .immediate, .position⟩ ∧
    decodeWord 1101 = .ok ⟨.add, .immediate, .immediate, .position⟩ ∧
    decodeWord 1105 = .ok ⟨.jt, .immediate, .immediate, .position⟩ ∧
    decodeWord 1107 = .ok ⟨.lt, .immediate, .immediate, .position⟩ := by decide

/-- The words of section 2.1 that raise InvalidOpcode. -/
theorem test_decode_invalid_opcode :
    ∀ w ∈ ([0, 98, 100, -1, -99] : List Int), decodeWord w = .error .invalidOpcode := by decide

/-- The words of section 2.1 that raise InvalidMode. -/
theorem test_decode_invalid_mode :
    ∀ w ∈ ([204, 2005, 20001, 1104, 10005, 199, 100001] : List Int), decodeWord w = .error .invalidMode := by decide

/-- The words of section 2.1 that raise InvalidWriteMode. -/
theorem test_decode_invalid_write_mode :
    ∀ w ∈ ([10001, 11108, 103] : List Int), decodeWord w = .error .invalidWriteMode := by decide

theorem test_decode_add : decode [1001, 10, -1, 10] = .ok (.add (.pos 10) (.imm (-1)) (.pos 10), []) := by decide
theorem test_decode_mul : decode [102, 4, 3, 5] = .ok (.mul (.imm 4) (.pos 3) (.pos 5), []) := by decide
theorem test_decode_in : decode [3, 17, 3] = .ok (.inp (.pos 17), [3]) := by decide
theorem test_decode_out : decode [104, 999] = .ok (.out (.imm 999), []) := by decide
theorem test_decode_jt : decode [1005, 10, 0] = .ok (.jt (.pos 10) (.imm 0), []) := by decide
theorem test_decode_jf : decode [106, 0, 36] = .ok (.jf (.imm 0) (.pos 36), []) := by decide
theorem test_decode_lt : decode [1007, 19, 100, 20] = .ok (.lt (.pos 19) (.imm 100) (.pos 20), []) := by decide
theorem test_decode_eq : decode [108, 8, 21, 20] = .ok (.eq (.imm 8) (.pos 21) (.pos 20), []) := by decide
theorem test_decode_hlt : decode [99, 7] = .ok (.hlt, [7]) := by decide
theorem test_decode_truncated : decode [1, 0, 0] = .error .truncated ∧ decode [] = .error .truncated := by decide

/-- The opcode table's words, through the host's numbering: 4 is OUT [0], 1105 JT #0 #0, 199 is no instruction. -/
theorem test_decode_table_word :
    decodeTableWord 16 4 = some (.out (.pos 0)) ∧ decodeTableWord 32 1105 = some (.jt (.imm 0) (.imm 0)) ∧
    decodeTableWord 8 99 = some .hlt ∧ decodeTableWord 8 199 = none := by decide

/-- R53: `MUL [4], #3, [4]` encodes as `1002,4,3,4`. -/
theorem test_encode : encode (.mul (.pos 4) (.imm 3) (.pos 4)) = [1002, 4, 3, 4] := by decide

/-- 95_test_vectors.md P1, its text and its words; the label stands for address 10. -/
theorem test_assemble_P1 :
    assemble [.instr .out [.pos (.label "n")],
      .instr .add [.pos (.label "n"), .imm (.num (-1)), .pos (.label "n")],
      .instr .jt [.pos (.label "n"), .imm (.num 0)], .instr .hlt [], .label "n", .data [.num 3]] =
    .ok [4, 10, 1001, 10, -1, 10, 1005, 10, 0, 99, 3] := by decide

/-! ### One Step of each instruction -/

/-- Section 2.2: `1101,-5,-7,0` writes -12 over its own instruction word and goes on at 4. -/
theorem test_add_own_word :
    (mk [1101, -5, -7, 0]).stepNext.mem.get 0 = -12 ∧ (mk [1101, -5, -7, 0]).stepNext.ip = 4 := by decide

/-- Section 2.2 and 2.7: `1,9,8,7`, N = 4, reports the address 9 of `a`. -/
theorem test_add_a_checked_first :
    (mk [1, 9, 8, 7]).stepNext.fault = some ⟨.addressOutOfBounds, 0, some 1, some 9⟩ := by decide

/-- Section 2.2: the product 10^24 is exact. -/
theorem test_mul_exact :
    (mk [1102, 1000000000000, 1000000000000, 4, 0]).stepNext.mem.get 4 = 1000000000000000000000000 := by decide

/-- W6, word 1002 at address 22: position times immediate. -/
theorem test_mul_modes : (mk [1002, 4, 125, 4, 8]).stepNext.mem.get 4 = 1000 := by decide

/-- Section 2.3: `3,1,99` with 42 overwrites its own parameter word, and the queue is used up. -/
theorem test_in_own_parameter :
    (mkIn [3, 1, 99] [42] true).stepNext = ({ mkIn [3, 42, 99] [] true with ip := 2 } : State) := by decide

/-- Section 2.3: `3,5,99` with the port empty and open faults on its dst; it does not hold. -/
theorem test_in_bad_dst_before_hold :
    (mkIn [3, 5, 99] [] false).stepReport = .faulted (some ⟨.addressOutOfBounds, 0, some 3, some 5⟩) := by decide

/-- Section 2.3: `104,-5,99` emits -5. -/
theorem test_out_immediate :
    (mk [104, -5, 99]).stepNext.outLog = [-5] ∧ (mk [104, -5, 99]).stepNext.ip = 2 := by decide

/-- Section 2.3: `4,7,99` faults and emits nothing. -/
theorem test_out_fault :
    (mk [4, 7, 99]).stepNext.fault = some ⟨.addressOutOfBounds, 0, some 4, some 7⟩ ∧
    (mk [4, 7, 99]).stepNext.outLog = [] := by decide

/-- Section 2.4: `105,1,4,99,3` jumps to M[4] = 3, through a position-mode target. -/
theorem test_jt_indirect : (mk [105, 1, 4, 99, 3]).stepNext.ip = 3 := by decide

/-- Section 2.4: `1105,0,7,99` is not taken and does not check its target. -/
theorem test_jt_untaken_unchecked :
    (mk [1105, 0, 7, 99]).stepReport = .stepped ∧ (mk [1105, 0, 7, 99]).stepNext.ip = 3 := by decide

/-- Section 2.4: `1106,-1,0,99` is not taken: -1 is not 0. -/
theorem test_jf_untaken : (mk [1106, -1, 0, 99]).stepNext.ip = 3 := by decide

/-- R68: `1106,0,1` is taken, and `1106,0,3` with N = 3 leaves memory. -/
theorem test_jf_taken :
    (mk [1106, 0, 1]).stepNext.ip = 1 ∧
    (mk [1106, 0, 3]).stepNext.fault = some ⟨.addressOutOfBounds, 0, some 1106, some 3⟩ := by decide

/-- Section 2.5: `7,5,0,5,99,9` compares 9 < 7 before it overwrites its own operand. -/
theorem test_lt_aliased : (mk [7, 5, 0, 5, 99, 9]).stepNext.mem.get 5 = 0 := by decide

/-- Section 2.5: -1 < 0, and 3 < 3 is false. -/
theorem test_lt_signed :
    (mk [1107, -1, 0, 5, 99, 7]).stepNext.mem.get 5 = 1 ∧
    (mk [1107, 3, 3, 5, 99, 7]).stepNext.mem.get 5 = 0 := by decide

/-- Section 2.5: -5 = -5. -/
theorem test_eq_negative : (mk [1108, -5, -5, 5, 99, 7]).stepNext.mem.get 5 = 1 := by decide

/-- W2: 1 is not 8. -/
theorem test_eq_false : (mk [8, 4, 5, 4, 1, 8]).stepNext.mem.get 4 = 0 := by decide

/-- Section 2.6: `99` halts with `ip` at the HLT word. -/
theorem test_hlt : (mk [99]).stepNext = ({ mk [99] with status := .halted } : State) := by decide

/-! ### The Step around the instructions -/

/-- Section 2.6: an empty memory: the fault has no word. -/
theorem test_fetch_empty :
    (mk []).stepNext.fault = some ⟨.addressOutOfBounds, 0, none, some 0⟩ := by decide

/-- Section 2.2: `1,0,0`, N = 3: the parameter word at 3 is missing. -/
theorem test_fetch_parameter :
    (mk [1, 0, 0]).stepNext.fault = some ⟨.addressOutOfBounds, 0, some 1, some 3⟩ := by decide

/-- Section 2.7: a bad write mode is reported before a missing parameter word and before a bad dst. -/
theorem test_write_mode_first :
    (mk [10001, 9, 9]).stepNext.fault = some ⟨.invalidWriteMode, 0, some 10001, none⟩ ∧
    (mk [11101, -1, 0, 7]).stepNext.fault = some ⟨.invalidWriteMode, 0, some 11101, none⟩ := by decide

/-- Section 2.3: an empty closed port. -/
theorem test_input_exhausted :
    (mkIn [3, 0, 99] [] true).stepNext.fault = some ⟨.inputExhausted, 0, some 3, none⟩ := by decide

/-- Section 2.3: an empty open port holds, and the value the host appends is taken. -/
theorem test_hold :
    (mkIn [3, 0, 99] [] false).stepReport = .held ∧
    (mkIn [3, 0, 99] [] false).stepNext = mkIn [3, 0, 99] [] false ∧
    (mkIn [3, 0, 99] [5] false).stepNext.mem.get 0 = 5 := by decide

/-- P5: after the fault memory and output are as they were, and address 0 reads back. -/
theorem test_precise_fault :
    (mk [1101, 2, 3, 10, 99]).stepNext.mem = (mk [1101, 2, 3, 10, 99]).mem ∧
    (mk [1101, 2, 3, 10, 99]).stepNext.readBack 0 = .ok 1101 := by decide

/-- Log 1, log 7: a placed word is the next one to run, from reset. -/
theorem test_with_fetch_word :
    (State.reset.withFetchWord 8 99).stepNext.status = .halted ∧
    (State.reset.withFetchWord 16 4).stepNext.outLog = [4] := by decide

theorem test_reset_memory_wf : Memory.wf State.reset.N State.reset.mem = true := by decide

/-- W8: the patch with noun 9 and verb 10 leaves that program as it is. -/
theorem test_patch :
    patch [1, 9, 10, 3, 2, 3, 11, 0, 99, 30, 40, 50] 9 10 = .ok [1, 9, 10, 3, 2, 3, 11, 0, 99, 30, 40, 50] := by decide

/-! ### Witnesses: every obligation's hypotheses can be met -/

/-- The word `w` and `k` parameter words, and nothing after them. -/
def short (w : Int) (k : Nat) : State := mk (w :: List.replicate k 0)

/-- The hypotheses of `ownChecksFirst` are met for this opcode: with the first missing parameter word at each place it can
be, and with none missing. -/
def ownChecksMet (op : Opcode) (w : Int) (h : Header) : Prop :=
  decodeWord w = .ok h ∧ h.op = op ∧
  (∀ k : Nat, k < op.arity →
    (short w k).status = .running ∧ (short w k).memRead (short w k).ip = .ok w ∧
    (∀ j : Nat, j < k → (short w k).inBounds ((short w k).ip + 1 + j)) ∧
    ¬ (short w k).inBounds ((short w k).ip + 1 + k)) ∧
  (short w op.arity).status = .running ∧ (short w op.arity).memRead (short w op.arity).ip = .ok w ∧
  (List.replicate op.arity (0 : Int)).length = op.arity ∧
  (short w op.arity).holdsAt ((short w op.arity).ip + 1) (List.replicate op.arity 0)

/-- A memory of five cells: 0 names the first, 4 the last, -1 and 5 none. -/
def five : State := mk [99, 0, 0, 0, 7]

/-- The hypotheses of the four clauses of `binaryRule`, at the first and the last cell and just outside on both sides. -/
theorem binary_clauses_met :
    (Param.pos 0).mode = .position ∧
    (five.readable (.pos 0) ∧ five.readable (.imm 5) ∧ five.inBounds (Param.pos 4).word) ∧
    (five.readable (.imm (-1)) ∧ five.readable (.pos 4) ∧ five.inBounds (Param.pos 0).word) ∧
    (¬ five.readable (.pos 5) ∧ ¬ five.readable (.pos (-1))) ∧
    (five.readable (.pos 4) ∧ ¬ five.readable (.pos 5) ∧ ¬ five.readable (.pos (-1))) ∧
    (five.readable (.pos 4) ∧ five.readable (.pos 0) ∧ ¬ five.inBounds (Param.pos 5).word ∧
      ¬ five.inBounds (Param.pos (-1)).word) := by decide

/-- The hypotheses of the clauses of `jumpRule` that do not look at the condition. -/
theorem jump_clauses_met :
    (¬ five.readable (.pos 5) ∧ ¬ five.readable (.pos (-1))) ∧
    (five.readable (.pos 0) ∧ ¬ five.readable (.pos 5) ∧ ¬ five.readable (.pos (-1))) := by decide

theorem witness_InvalidOpcodeExactly :
    (∀ w ∈ ([0, 9, 98, 100] : List Nat), w % 100 ∉ ([1, 2, 3, 4, 5, 6, 7, 8, 99] : List Nat)) ∧
    (mk [9]).status = .running ∧ (mk [9]).memRead (mk [9]).ip = .ok 9 := by decide

theorem witness_NegativeWordsHaveNoOpcode :
    (-1 : Int) < 0 ∧ (-99 : Int) < 0 ∧ (mk [-1]).status = .running ∧ (mk [-1]).memRead (mk [-1]).ip = .ok (-1) := by decide

theorem witness_InvalidModeExactly :
    (204 % 100 = Opcode.out.code ∧ 1104 % 100 = Opcode.out.code ∧ 100001 % 100 = Opcode.add.code) ∧
    decodeWord 204 = .error .invalidMode ∧ decodeWord 1104 = .error .invalidMode ∧
    decodeWord 100001 = .error .invalidMode ∧
    (mk [204]).status = .running ∧ (mk [204]).memRead (mk [204]).ip = .ok 204 := by decide

theorem witness_InvalidWriteModeExactly :
    decodeWord 103 = .error .invalidWriteMode ∧ decodeWord 11108 = .error .invalidWriteMode ∧
    (mk [103]).status = .running ∧ (mk [103]).memRead (mk [103]).ip = .ok 103 := by decide

theorem witness_LengthKnownFromOpcode :
    (1 : Int) % 100 = 1101 % 100 ∧ decode [1, 0, 0, 0] = .ok (.add (.pos 0) (.pos 0) (.pos 0), []) ∧
    decode [1101, 0, 0, 0, 99] = .ok (.add (.imm 0) (.imm 0) (.pos 0), [99]) := by decide

theorem witness_DecodeOfEncode :
    ∀ i ∈ ([.add (.pos 0) (.imm 1) (.pos (-1)), .mul (.imm 0) (.pos 1) (.pos 2), .inp (.pos 0), .out (.imm (-1)),
      .jt (.imm 1) (.pos 0), .jf (.pos 0) (.imm 0), .lt (.pos 0) (.pos 1) (.pos 2), .eq (.imm 0) (.imm 1) (.pos 2),
      .hlt] : List Instr), i.wellFormed = true := by decide

theorem witness_EncodeOfDecode : decode [104, -1, 99] = .ok (.out (.imm (-1)), [99]) := by decide

theorem witness_AssemblerEmitsEncoding : (Instr.jt (.imm 1) (.pos 0)).wellFormed = true := by decide

theorem witness_AddRule : ownChecksMet .add 1 ⟨.add, .position, .position, .position⟩ ∧
    (Param.pos 0).mode = .position ∧ five.readable (.pos 0) ∧ five.readable (.imm 5) ∧ five.inBounds 4 :=
  ⟨⟨by decide, rfl, by decide, rfl, rfl, rfl, rfl, rfl, rfl, trivial⟩, by decide⟩

theorem witness_MulRule : ownChecksMet .mul 1102 ⟨.mul, .immediate, .immediate, .position⟩ ∧
    (Param.pos 0).mode = .position ∧ five.readable (.pos 0) ∧ five.readable (.imm 5) ∧ five.inBounds 4 :=
  ⟨⟨by decide, rfl, by decide, rfl, rfl, rfl, rfl, rfl, rfl, trivial⟩, by decide⟩

theorem witness_LtRule : ownChecksMet .lt 107 ⟨.lt, .immediate, .position, .position⟩ ∧
    (Param.pos 0).mode = .position ∧ five.readable (.pos 0) ∧ five.readable (.imm 5) ∧ five.inBounds 4 :=
  ⟨⟨by decide, rfl, by decide, rfl, rfl, rfl, rfl, rfl, rfl, trivial⟩, by decide⟩

theorem witness_EqRule : ownChecksMet .eq 1008 ⟨.eq, .position, .immediate, .position⟩ ∧
    (Param.pos 0).mode = .position ∧ five.readable (.pos 0) ∧ five.readable (.imm 5) ∧ five.inBounds 4 :=
  ⟨⟨by decide, rfl, by decide, rfl, rfl, rfl, rfl, rfl, rfl, trivial⟩, by decide⟩

theorem witness_InRule : ownChecksMet .inp 3 ⟨.inp, .position, .position, .position⟩ ∧
    (Param.pos 2).mode = .position ∧
    ((mkIn [3, 2, 99] [5, 6] false).inBounds 2 ∧ (mkIn [3, 2, 99] [5, 6] false).inQueue = 5 :: [6]) ∧
    (¬ (mkIn [3, 3, 99] [5] true).inBounds 3 ∧ ¬ (mkIn [3, -1, 99] [] false).inBounds (-1)) ∧
    ((mkIn [3, 0, 99] [] true).inBounds 0 ∧ (mkIn [3, 0, 99] [] true).inQueue = [] ∧
      (mkIn [3, 0, 99] [] true).inClosed = true) ∧
    ((mkIn [3, 0, 99] [] false).inBounds 0 ∧ (mkIn [3, 0, 99] [] false).inQueue = [] ∧
      (mkIn [3, 0, 99] [] false).inClosed = false) :=
  ⟨⟨by decide, rfl, by decide, rfl, rfl, rfl, rfl, trivial⟩, by decide⟩

theorem witness_OutRule : ownChecksMet .out 104 ⟨.out, .immediate, .position, .position⟩ ∧
    five.readable (.imm 5) ∧ five.readable (.pos 0) ∧ five.readable (.pos 4) ∧
    ¬ five.readable (.pos 5) ∧ ¬ five.readable (.pos (-1)) :=
  ⟨⟨by decide, rfl, by decide, rfl, rfl, rfl, rfl, trivial⟩, by decide⟩

theorem witness_JtRule : ownChecksMet .jt 1105 ⟨.jt, .immediate, .immediate, .position⟩ ∧
    (five.readable (.imm (-1)) ∧ five.readable (.imm 4) ∧ five.value (.imm (-1)) ≠ 0 ∧
      five.inBounds (five.value (.imm 4)) ∧ five.inBounds (five.value (.imm 0))) ∧
    (five.readable (.pos 1) ∧ five.readable (.imm 5) ∧ ¬ five.value (.pos 1) ≠ 0) ∧
    (five.readable (.imm 1) ∧ five.readable (.imm 5) ∧ five.value (.imm 1) ≠ 0 ∧
      ¬ five.inBounds (five.value (.imm 5)) ∧ ¬ five.inBounds (five.value (.imm (-1)))) :=
  ⟨⟨by decide, rfl, by decide, rfl, rfl, rfl, rfl, rfl, trivial⟩, by decide⟩

theorem witness_JfRule : ownChecksMet .jf 6 ⟨.jf, .position, .position, .position⟩ ∧
    (five.readable (.pos 1) ∧ five.readable (.imm 4) ∧ five.value (.pos 1) = 0 ∧
      five.inBounds (five.value (.imm 4)) ∧ five.inBounds (five.value (.imm 0))) ∧
    (five.readable (.imm (-1)) ∧ five.readable (.imm 5) ∧ ¬ five.value (.imm (-1)) = 0) ∧
    (five.readable (.imm 0) ∧ five.readable (.imm 5) ∧ five.value (.imm 0) = 0 ∧
      ¬ five.inBounds (five.value (.imm 5)) ∧ ¬ five.inBounds (five.value (.imm (-1)))) :=
  ⟨⟨by decide, rfl, by decide, rfl, rfl, rfl, rfl, rfl, trivial⟩, by decide⟩

theorem witness_HltRule : ownChecksMet .hlt 99 ⟨.hlt, .position, .position, .position⟩ :=
  ⟨by decide, rfl, by decide, rfl, rfl, rfl, trivial⟩

theorem witness_ReadEffectiveValue :
    (Param.imm 5).mode = .immediate ∧ (Param.pos 4).mode = .position ∧ five.inBounds (Param.pos 4).word ∧
    five.inBounds (Param.pos 0).word ∧ ¬ five.inBounds (Param.pos 5).word ∧
    ¬ five.inBounds (Param.pos (-1)).word := by decide

theorem witness_IllFormedTargetFaults :
    (Param.imm 4).mode = .immediate ∧ five.readable (.pos 4) ∧ five.readable (.imm 0) := by decide

theorem witness_StoringFrame :
    (∃ t, exec (.add (.imm 1) (.pos 4) (.pos 4)) five = .next t) ∧
    (∃ t, exec (.mul (.imm 1) (.pos 4) (.pos 4)) five = .next t) ∧
    (∃ t, exec (.lt (.imm 1) (.pos 4) (.pos 4)) five = .next t) ∧
    (∃ t, exec (.eq (.imm 1) (.pos 4) (.pos 4)) five = .next t) ∧
    (∃ t, exec (.inp (.pos 4)) (mkIn [99, 0, 0, 0, 7] [5] false) = .next t) ∧
    ((3 : Int) ≠ (Param.pos 4).word) ∧
    (∃ t, exec (.add (.imm 1) (.pos 4) (.pos 5)) five = .next t ∧ t.status = .faulted ∧ t.fault ≠ five.fault) :=
  ⟨⟨_, rfl⟩, ⟨_, rfl⟩, ⟨_, rfl⟩, ⟨_, rfl⟩, ⟨_, rfl⟩, by decide, ⟨_, rfl, by decide⟩⟩

theorem witness_NonStoringFrame :
    (∃ t, exec (.out (.pos 4)) five = .next t) ∧ (∃ t, exec (.jt (.pos 4) (.imm 0)) five = .next t) ∧
    (∃ t, exec (.jf (.pos 1) (.imm 4)) five = .next t) ∧ (∃ t, exec .hlt five = .next t) ∧
    (∃ t, exec (.jf (.pos 1) (.imm 5)) five = .next t) ∧
    Instr.hlt ≠ .out (.pos 4) ∧ Instr.jt (.pos 4) (.imm 0) ≠ .hlt :=
  ⟨⟨_, rfl⟩, ⟨_, rfl⟩, ⟨_, rfl⟩, ⟨_, rfl⟩, ⟨_, rfl⟩, by decide⟩

theorem witness_StepRunsDecodedInstruction :
    (mk [1101, 2, 3, 10, 99]).status = .running ∧
    (mk [1101, 2, 3, 10, 99]).holdsAt (mk [1101, 2, 3, 10, 99]).ip [1101, 2, 3, 10, 99] ∧
    decode [1101, 2, 3, 10, 99] = .ok (.add (.imm 2) (.imm 3) (.pos 10), [99]) :=
  ⟨rfl, ⟨rfl, rfl, rfl, rfl, rfl, trivial⟩, by decide⟩

theorem witness_FetchFaultsInOrder :
    ((mk []).status = .running ∧ ¬ (mk []).inBounds (mk []).ip) ∧
    (¬ ({ five with ip := 5 } : State).inBounds 5 ∧ ¬ ({ five with ip := -1 } : State).inBounds (-1)) ∧
    ((mk [98]).memRead (mk [98]).ip = .ok 98 ∧ decodeWord 98 = .error .invalidOpcode) ∧
    ownChecksMet .lt 7 ⟨.lt, .position, .position, .position⟩ :=
  ⟨by decide, by decide, by decide, by decide, rfl, by decide, rfl, rfl, rfl, rfl, rfl, rfl, trivial⟩

theorem witness_FaultEntryIsPrecise :
    (mk [98]).status = .running ∧ step (mk [98]) = .next (mk [98]).stepNext ∧
    (mk [98]).stepNext.status = .faulted :=
  ⟨rfl, rfl, rfl⟩

/-- One faulting Step of each kind. -/
theorem witness_FaultKindsHaveTheirCauses :
    ∀ p ∈ ([(mk [98], .invalidOpcode), (mk [204], .invalidMode), (mk [103], .invalidWriteMode),
      (mk [3, 0], .inputExhausted), (mk [], .addressOutOfBounds), (mk [4, 2], .addressOutOfBounds)] :
      List (State × FaultKind)),
      p.1.status = .running ∧ p.1.stepNext.status = .faulted ∧ p.1.stepNext.fault.map (·.kind) = some p.2 := by decide

theorem witness_EndedStatesAbsorb :
    (mk [99]).stepNext.status = .halted ∧ (mk [98]).stepNext.status = .faulted := by decide

theorem witness_StepReportsFourOutcomes :
    step (mkIn [3, 0] [] false) = .next (mkIn [3, 0] [] false) ∧ (mkIn [3, 0] [] false).inWait = true ∧
    (mk [99]).inWait = false :=
  ⟨rfl, by decide, by decide⟩

theorem witness_IpMovesOnlyOnCompletion :
    (mk [1105, 1, 2]).status = .running ∧ step (mk [1105, 1, 2]) = .next (mk [1105, 1, 2]).stepNext ∧
    (mk [1105, 1, 2]).stepNext.ip = 2 :=
  ⟨rfl, rfl, rfl⟩

theorem witness_OnlyHltHalts :
    (mk [99]).status = .running ∧ step (mk [99]) = .next (mk [99]).stepNext ∧
    (mk [99]).stepNext.status = .halted :=
  ⟨rfl, rfl, rfl⟩

theorem witness_StepKeepsPortDiscipline :
    step (mkIn [3, 0] [5] true) = .next (mkIn [3, 0] [5] true).stepNext ∧
    step (mk [104, 1]) = .next (mk [104, 1]).stepNext :=
  ⟨rfl, rfl⟩

theorem witness_OutputLogIsNeverRead : step (mk [104, 1]) = .next (mk [104, 1]).stepNext := rfl

theorem witness_StoreIntoCodeIsSeenNext :
    (mk [1101, -5, -7, 4, 99]).status = .running ∧
    (mk [1101, -5, -7, 4, 99]).holdsAt (mk [1101, -5, -7, 4, 99]).ip (encode (.add (.imm (-5)) (.imm (-7)) (.pos 4))) ∧
    (mk [1101, -5, -7, 4, 99]).readable (.imm (-5)) ∧ (mk [1101, -5, -7, 4, 99]).readable (.imm (-7)) ∧
    (mk [1101, -5, -7, 4, 99]).inBounds 4 ∧ (4 : Int) = (mk [1101, -5, -7, 4, 99]).ip + 4 ∧
    decodeWord (-5 + -7) = .error .invalidOpcode :=
  ⟨rfl, ⟨rfl, rfl, rfl, rfl, trivial⟩, by decide, by decide, by decide, by decide, by decide⟩

/-- A running state that meets the invariant. -/
theorem five_inv : five.Inv where
  memory := by decide
  ip_nonneg := by decide
  fault_iff := by decide
  record := by intro r h; cases h
  halt_word := by intro h; cases h

theorem witness_StepKeepsInvariant : five.Inv ∧ step five = .next five.stepNext := ⟨five_inv, rfl⟩

theorem witness_HostActionsKeepInvariant :
    (mkIn [3, 0] [] false).Inv ∧
    runEvents [.step, .append 5, .step, .close] (mkIn [3, 0] [] false) =
      .ok { mkIn [5, 0] [] true with ip := 2 } :=
  ⟨⟨by decide, by decide, by decide, (fun _ h => by cases h), (fun h => by cases h)⟩, rfl⟩

theorem witness_EndedRunsStayEnded :
    (mkIn [99] [] false).stepNext.ended ∧
    ∃ t, runEvents [.step, .append 5, .close] (mkIn [99] [] false).stepNext = .ok t :=
  ⟨by decide, _, rfl⟩

theorem witness_MemoryAccessIsChecked :
    five.inBounds 0 ∧ five.inBounds 4 ∧ ¬ five.inBounds 5 ∧ ¬ five.inBounds (-1) := by decide

theorem witness_CanonicalMemoriesAreEqual :
    Memory.wf 5 [(0, 99), (4, 7)] = true ∧ Memory.wf 5 five.mem = true ∧
    ∀ a, a < 5 → Memory.get [(0, 99), (4, 7)] a = five.mem.get a := by decide

theorem witness_InPopAndHold :
    (mkIn [3, 0] [5, 6] false).inQueue = 5 :: [6] ∧
    ((mkIn [3, 0] [] true).inQueue = [] ∧ (mkIn [3, 0] [] true).inClosed = true) ∧
    ((mkIn [3, 0] [] false).inQueue = [] ∧ (mkIn [3, 0] [] false).inClosed = false) ∧
    (mkIn [3, 0] [] false).inWait = true ∧
    (mkIn [3, 0] [] false).hostAppend 5 = .ok (mkIn [3, 0] [5] false) ∧
    (mkIn [3, 0] [] false).hostClose = .ok (mkIn [3, 0] [] true) := by decide

theorem witness_InWaitExactly :
    (mkIn [3, 1] [] false).inWait = true ∧ (mkIn [3, 2] [] false).inWait = false := by decide

theorem witness_HostActsOnOpenPortOnly :
    (mkIn [99] [] false).inClosed = false ∧ (mkIn [99] [] true).inClosed = true := by decide

theorem witness_AppendCommutesWithStep :
    (mkIn [3, 0] [5] false).inWait = false ∧
    (mkIn [3, 0] [5] false).hostAppend 6 = .ok (mkIn [3, 0] [5, 6] false) := by decide

/-- Two interleavings of one append with the Steps of `3,2,0`, which takes 99 into cell 2 and halts there. -/
theorem witness_RunsAreDeterministic : ∃ t u,
    runEvents [.append 99, .step, .step] (mkIn [3, 2, 0] [] false) = .ok t ∧
    runEvents [.step, .append 99, .step, .step] (mkIn [3, 2, 0] [] false) = .ok u ∧ t.ended ∧ u.ended ∧
    suppliedValues [.append 99, .step, .step] = suppliedValues [.step, .append 99, .step, .step] ∧
    closesPort [.append 99, .step, .step] = closesPort [.step, .append 99, .step, .step] :=
  ⟨_, _, rfl, rfl, by decide⟩

theorem witness_ResetSetsEveryField :
    mkIn [1, -2] [3] false = State.resetWith [1, -2] [3] false ∧ 1 < ([1, -2] : List Int).length := by decide

theorem witness_ReadBackOnlyWhenEnded :
    (mk [99]).status = .running ∧ (mk [99]).stepNext.ended ∧ ¬ (mk [99]).stepNext.inBounds 1 ∧
    ¬ (mk [99]).stepNext.inBounds (-1) := by decide

theorem witness_RunStepsToTheEnd : run 1 (mk [99]) = .ended (mk [99]).stepNext := by decide

theorem witness_PatchChangesNounAndVerb :
    ([1, 0] : List Int).length < 3 ∧ 3 ≤ ([1, 0, 0] : List Int).length := by decide

/-- With `1,0,0,0,99`, the pair (0, 1) adds cells 0 and 1, so it gives 1 + 0; the pair before it gives 2. -/
theorem witness_SearchFindsFirstMatch :
    search 3 [1, 0, 0, 0, 99] [] true 1 1 (fun _ => false) = .found 0 1 1 ∧ 0 ≤ 1 ∧ (0 < 0 ∨ 0 = 0 ∧ 0 < 1) := by decide

theorem witness_PlacedWordRunsNext : decodeTableWord 32 1101 = some (.add (.imm 0) (.imm 0) (.pos 0)) := by decide

end Sys2Proof.Tests
end

section
/-! Checked memory access and the effective value of a parameter (20_memory.md R31, R33). -/

namespace Sys2Proof.Machine

/-! ### Writing a cell and reading afterwards -/

theorem memWrite_of_not_inBounds {s : State} {a : Int} (v : Int) (h : ¬ s.inBounds a) :
    s.memWrite a v = .error (.raise .addressOutOfBounds (some a)) := if_neg h

theorem memRead_setCell_self {s : State} {a : Int} (v : Int) (h : s.inBounds a) :
    (s.setCell a v).memRead a = .ok v := by
  rw [memRead_of_inBounds ((setCell_inBounds s a a v).2 h), cell_setCell s a a v h h, if_pos rfl]

/-- The frame of a write: every other address, one outside memory too, reads as before. -/
theorem memRead_setCell_of_ne {s : State} {a b : Int} (v : Int) (ha : s.inBounds a) (hne : b ≠ a) :
    (s.setCell a v).memRead b = s.memRead b := by
  by_cases hb : s.inBounds b
  · rw [memRead_of_inBounds ((setCell_inBounds s a b v).2 hb), memRead_of_inBounds hb,
      cell_setCell s a b v ha hb, if_neg hne]
  · rw [memRead_of_not_inBounds (mt (setCell_inBounds s a b v).1 hb), memRead_of_not_inBounds hb]

/-- Settles O41: the check decides both accesses, and a write that passes it is `setCell`, whose frame is above. -/
theorem memoryAccessIsChecked : Obligations.MemoryAccessIsChecked := by
  intro s a v
  constructor
  · intro h
    exact ⟨⟨s.cell a, memRead_of_inBounds h⟩, s.setCell a v, memWrite_of_inBounds v h, memRead_setCell_self v h,
      fun _ hne => memRead_setCell_of_ne v h hne, rfl⟩
  · intro h
    exact ⟨memRead_of_not_inBounds h, memWrite_of_not_inBounds v h⟩

/-! ### Parameters by mode -/

theorem readable_of_immediate {p : Param} (s : State) (h : p.mode = .immediate) : s.readable p :=
  fun hp => nomatch h.symm.trans hp

theorem readable_iff_inBounds_of_position {p : Param} (s : State) (h : p.mode = .position) :
    s.readable p ↔ s.inBounds p.word := ⟨fun hr => hr h, fun hb _ => hb⟩

theorem value_of_immediate {p : Param} (s : State) (h : p.mode = .immediate) : s.value p = p.word := by
  simp only [State.value, h]

theorem read_of_position {p : Param} (s : State) (h : p.mode = .position) : s.read p = s.memRead p.word := by
  simp only [State.read, h]

/-- Settles O20, by the parameter's mode and, for a position, whether its word names a cell. -/
theorem readEffectiveValue : Obligations.ReadEffectiveValue := by
  intro s p
  refine ⟨fun hm => ?immediate, fun hm hin => ?position_inside, fun hm hout => ?position_outside⟩
  case immediate =>
    have hr : s.readable p := readable_of_immediate s hm
    have hv : s.value p = p.word := value_of_immediate s hm
    exact ⟨hv ▸ read_of_readable hr, hr, hv⟩
  case position_inside =>
    have hr : s.readable p := (readable_iff_inBounds_of_position s hm).2 hin
    exact ⟨hr, read_of_position s hm, read_of_readable hr⟩
  case position_outside =>
    have hr : ¬ s.readable p := mt (readable_iff_inBounds_of_position s hm).1 hout
    exact ⟨hr, read_of_not_readable hr⟩

end Sys2Proof.Machine
end

section
/-! What the rules of the single instructions share: decoding a word whose fields are known, the Step's own checks, and
storing a result (30_encoding.md R46, R54; 20_memory.md R34, R36). -/

namespace Sys2Proof

/-- `Decode` of a word composed of its fields: with the modes of absent parameters position, only the write-mode check of
R51 is left to decide. -/
theorem decodeWord_word {h : Header} (l1 : h.op.arity < 1 → h.mode1 = .position)
    (l2 : h.op.arity < 2 → h.mode2 = .position) (l3 : h.op.arity < 3 → h.mode3 = .position) :
    decodeWord (h.word : Int) = if h.immediateTarget then .error .invalidWriteMode else .ok h := by
  obtain ⟨hc, hz, h1, h2, h3⟩ := wordFields h
  have hnn : ¬ ((h.word : Int) < 0) := by omega
  have e1 := paramMode_eq_some.2 ⟨h1, l1⟩
  have e2 := paramMode_eq_some.2 ⟨h2, l2⟩
  have e3 := paramMode_eq_some.2 ⟨h3, l3⟩
  simp only [decodeWord, if_neg hnn, Int.toNat_natCast, hc, ofCode_code, hz, e1, e2, e3]
  rfl

/-- A word that decodes, with as many parameter words behind it as its opcode has parameters, decodes to the instruction
they make, whatever follows. -/
theorem decode_cons_append {w : Int} {h : Header} {ps : List Int} (hd : decodeWord w = .ok h)
    (hl : ps.length = h.op.arity) (rest : List Int) : decode (w :: (ps ++ rest)) = .ok (h.toInstr ps, rest) := by
  have hlen : ¬ (ps ++ rest).length < ps.length := by simp
  simp only [decode, hd, ← hl, if_neg hlen, List.take_left, List.drop_left]

end Sys2Proof

namespace Sys2Proof.Machine

/-- The Step of a running engine whose fetch part stops. -/
theorem step_of_fetch_error {s : State} {e : Stop} (hs : s.status = .running) (hf : s.fetch = .error e) :
    step s = s.finish (.error e) := by
  rw [step_of_running hs, attemptStep, hf, except_error_bind]

/-- The Step of a running engine whose fetch part completes. -/
theorem step_of_fetch_ok {s : State} {i : Instr} (hs : s.status = .running) (hf : s.fetch = .ok i) :
    step s = exec i s := by
  rw [step_of_running hs, attemptStep, hf, except_ok_bind, exec_eq_finish]

/-- The order of a Step's own checks is the same at every opcode, since fetching looks at the arity alone. -/
theorem ownChecksFirst_all (op : Opcode) : ownChecksFirst op := by
  rintro s w h hs hw hd rfl
  constructor
  · intro k hk hbefore hmissing
    have hp : s.fetchParams (s.ip + 1) h.op.arity = .error (.raise .addressOutOfBounds (some (s.ip + 1 + k))) :=
      fetchParams_eq_error.2 ⟨k, hk, hbefore, hmissing, rfl⟩
    exact step_of_fetch_error hs (fetch_eq_error.2 (.inr (.inr ⟨w, h, hw, hd, hp⟩)))
  · intro ps hl hp
    exact step_of_fetch_ok hs (fetch_eq_ok.2 ⟨w, h, ps, hw, hd, hl, hp, rfl⟩)

@[simp] theorem advance_memRead (s : State) (n : Nat) (a : Int) : (s.advance n).memRead a = s.memRead a := rfl

/-- Storing at a cell and advancing is what `afterStore` describes. -/
theorem afterStore_setCell_advance {s : State} {d : Int} (v : Int) (n : Nat) (hd : s.inBounds d) :
    s.afterStore ((s.setCell d v).advance n) d v n :=
  ⟨memRead_setCell_self v hd, fun _ hne => memRead_setCell_of_ne v hd hne, rfl⟩

end Sys2Proof.Machine
end

section
/-! The rule of an instruction `dst <- f a b`, proved once for every opcode with two sources and a write target: ADD and MUL
(40_arithmetic.md R57, R58). -/

namespace Sys2Proof

/-- The opcode's parameters are two sources and a write target (30_encoding.md R43). -/
def Opcode.IsBinary (op : Opcode) : Prop := op.roles = [.source, .source, .writeTarget]

variable {op : Opcode}

theorem Opcode.IsBinary.arity_eq (hop : op.IsBinary) : op.arity = 3 := congrArg List.length hop

theorem Opcode.IsBinary.immediateTarget_eq (hop : op.IsBinary) (m1 m2 m3 : Mode) :
    Header.immediateTarget ⟨op, m1, m2, m3⟩ = decide (m3 = .immediate) := by
  cases op with
  | add | mul | lt | eq => rfl
  | inp | out | jt | jf | hlt => cases hop

/-- A legal header of such an opcode is any choice of the two source modes, the target's being position. -/
theorem Opcode.IsBinary.legal_iff (hop : op.IsBinary) (m1 m2 m3 : Mode) :
    Header.legal ⟨op, m1, m2, m3⟩ ↔ m3 = .position := by
  cases m3 <;> simp [Header.legal, hop.arity_eq, hop.immediateTarget_eq]

theorem Opcode.IsBinary.decodeWord_eq (hop : op.IsBinary) (m1 m2 m3 : Mode) :
    decodeWord (Header.word ⟨op, m1, m2, m3⟩ : Int) =
      if m3 = .immediate then .error .invalidWriteMode else .ok ⟨op, m1, m2, m3⟩ := by
  have ha : ∀ k ≤ 3, ¬ op.arity < k := fun k hk => by rw [hop.arity_eq]; omega
  have hw := decodeWord_word (h := ⟨op, m1, m2, m3⟩) (absurd · (ha 1 (by decide))) (absurd · (ha 2 (by decide)))
    (absurd · (ha 3 (by decide)))
  simpa only [hop.immediateTarget_eq, decide_eq_true_eq] using hw

/-- The four legal words, one for each choice of the two source modes. -/
theorem Opcode.IsBinary.decodesExactly (hop : op.IsBinary) :
    decodesExactly op [(op.code : Int), op.code + 100, op.code + 1000, op.code + 1100] := by
  intro w
  have hmodes : (∃ h, decodeWord w = .ok h ∧ h.op = op) ↔
      ∃ m1 m2 : Mode, w = (Header.word ⟨op, m1, m2, .position⟩ : Int) := by
    constructor
    · rintro ⟨⟨_, m1, m2, m3⟩, hd, rfl⟩
      obtain ⟨hw, hl⟩ := decodeWord_eq_ok.1 hd
      obtain rfl := (hop.legal_iff m1 m2 m3).1 hl
      exact ⟨m1, m2, hw⟩
    · rintro ⟨m1, m2, hw⟩
      exact ⟨_, decodeWord_eq_ok.2 ⟨hw, (hop.legal_iff m1 m2 _).2 rfl⟩, rfl⟩
  rw [hmodes]
  simp only [Header.word, List.mem_cons, List.not_mem_nil, or_false]
  constructor
  · rintro ⟨m1, m2, rfl⟩
    cases m1 <;> cases m2 <;> simp [Mode.digit, add_assoc]
  · rintro (rfl | rfl | rfl | rfl)
    · exact ⟨.position, .position, by simp [Mode.digit]⟩
    · exact ⟨.immediate, .position, by simp [Mode.digit]⟩
    · exact ⟨.position, .immediate, by simp [Mode.digit]⟩
    · exact ⟨.immediate, .immediate, by simp [Mode.digit, add_assoc]⟩

end Sys2Proof

namespace Sys2Proof.Machine

/-- What `exec` answers for an instruction whose attempt is `attemptBinary f`: the result, or the first failing check. -/
theorem exec_of_attemptBinary {i : Instr} {f : Int → Int → Int} {a b dst : Param} {s : State}
    (hi : attempt i s = attemptBinary f a b dst s) (hm : dst.mode = .position) :
    (s.readable a → s.readable b → s.inBounds dst.word →
      ∃ t, exec i s = .next t ∧ s.afterStore t dst.word (f (s.value a) (s.value b)) 4) ∧
    (¬ s.readable a → exec i s = .next (s.takeFault .addressOutOfBounds (some a.word))) ∧
    (s.readable a → ¬ s.readable b → exec i s = .next (s.takeFault .addressOutOfBounds (some b.word))) ∧
    (s.readable a → s.readable b → ¬ s.inBounds dst.word →
      exec i s = .next (s.takeFault .addressOutOfBounds (some dst.word))) := by
  rw [exec_eq_finish, hi]
  refine ⟨fun ha hb hd => ?completes, fun ha => ?first, fun ha hb => ?second, fun ha hb hd => ?target⟩
  case completes =>
    rw [attemptBinary_eq_ok.2 ⟨ha, hb, ⟨hm, hd⟩, rfl⟩]
    exact ⟨_, rfl, afterStore_setCell_advance _ 4 hd⟩
  case first => rw [attemptBinary_eq_error.2 (.inl ⟨ha, rfl⟩), finish_raise]
  case second => rw [attemptBinary_eq_error.2 (.inr (.inl ⟨ha, hb, rfl⟩)), finish_raise]
  case target =>
    have ht := writeTarget_eq_error.2 (.inr ⟨hm, hd, rfl⟩)
    rw [attemptBinary_eq_error.2 (.inr (.inr ⟨ha, hb, ht⟩)), finish_raise]

/-- The rule of every instruction of two sources and a write target, from the two facts that tell one from another: which
instruction its decoded words make, and which operation its attempt computes. -/
theorem binaryRule_of {op : Opcode} {mk : Param → Param → Param → Instr} {f : Int → Int → Int} (hop : op.IsBinary)
    (hmk : ∀ m1 m2 m3 p1 p2 p3, Header.toInstr ⟨op, m1, m2, m3⟩ [p1, p2, p3] = mk ⟨m1, p1⟩ ⟨m2, p2⟩ ⟨m3, p3⟩)
    (hf : ∀ a b dst s, attempt (mk a b dst) s = attemptBinary f a b dst s) :
    binaryRule op mk [(op.code : Int), op.code + 100, op.code + 1000, op.code + 1100] f := by
  refine ⟨hop.decodesExactly, ?operands, ?immediate_target, ownChecksFirst_all op, ?execution⟩
  case operands =>
    intro m1 m2 p1 p2 p3 rest
    have hw : op.code + 100 * m1.digit + 1000 * m2.digit = Header.word ⟨op, m1, m2, .position⟩ := rfl
    have hl : [p1, p2, p3].length = op.arity := hop.arity_eq.symm
    rw [hw, ← hmk]
    exact decode_cons_append (hop.decodeWord_eq m1 m2 .position) hl rest
  case immediate_target =>
    intro m1 m2
    have hw : 10000 + op.code + 100 * m1.digit + 1000 * m2.digit = Header.word ⟨op, m1, m2, .immediate⟩ := by
      simp only [Header.word, Mode.digit]; omega
    rw [hw]
    exact hop.decodeWord_eq m1 m2 .immediate
  case execution => exact fun a b dst s hm => exec_of_attemptBinary (hf a b dst s) hm

/-- Settles O11: ADD is the two-source instruction whose operation is the exact sum. -/
theorem addRule : Obligations.AddRule :=
  binaryRule_of (op := .add) rfl (fun _ _ _ _ _ _ => rfl) (fun _ _ _ _ => rfl)

/-- Settles O12: MUL is the two-source instruction whose operation is the exact product. -/
theorem mulRule : Obligations.MulRule :=
  binaryRule_of (op := .mul) rfl (fun _ _ _ _ _ _ => rfl) (fun _ _ _ _ => rfl)

end Sys2Proof.Machine
end

section
/-! OUT (41_io.md R64): its two words, and what it answers. -/

namespace Sys2Proof

/-- A legal header of OUT is any choice of its one source's mode, the absent parameters' being position. -/
theorem legal_out_iff (m1 m2 m3 : Mode) :
    Header.legal ⟨.out, m1, m2, m3⟩ ↔ m2 = .position ∧ m3 = .position := by
  simp [Header.legal, Opcode.arity, Opcode.roles, Header.immediateTarget]

theorem decodeWord_out (m : Mode) :
    decodeWord ((4 + 100 * m.digit : Nat) : Int) = .ok ⟨.out, m, .position, .position⟩ :=
  decodeWord_eq_ok.2 ⟨rfl, (legal_out_iff m _ _).2 ⟨rfl, rfl⟩⟩

/-- The two legal words, one for each mode of the source. -/
theorem decodesExactly_out : decodesExactly .out [4, 104] := by
  intro w
  simp only [List.mem_cons, List.not_mem_nil, or_false]
  constructor
  · rintro ⟨⟨_, m1, m2, m3⟩, hd, rfl⟩
    obtain ⟨rfl, hl⟩ := decodeWord_eq_ok.1 hd
    obtain ⟨rfl, rfl⟩ := (legal_out_iff m1 m2 m3).1 hl
    cases m1 with
    | position => exact .inl rfl
    | immediate => exact .inr rfl
  · rintro (rfl | rfl)
    · exact ⟨_, decodeWord_out .position, rfl⟩
    · exact ⟨_, decodeWord_out .immediate, rfl⟩

end Sys2Proof

namespace Sys2Proof.Machine

theorem exec_out_of_readable {a : Param} {s : State} (ha : s.readable a) :
    exec (.out a) s = .next ((s.outPush (s.value a)).advance 2) := by
  rw [exec_eq_finish, attempt, attemptOut_eq_ok.2 ⟨ha, rfl⟩, finish_ok]

theorem exec_out_of_not_readable {a : Param} {s : State} (ha : ¬ s.readable a) :
    exec (.out a) s = .next (s.takeFault .addressOutOfBounds (some a.word)) := by
  rw [exec_eq_finish, attempt, attemptOut_eq_error.2 ⟨ha, rfl⟩, finish_raise]

/-- Settles O16: OUT's words, and its two answers by whether its source can be read. -/
theorem outRule : Obligations.OutRule := by
  refine ⟨decodesExactly_out, ?operand, ownChecksFirst_all .out, ?execution⟩
  case operand => exact fun m p rest => decode_cons_append (decodeWord_out m) (ps := [p]) rfl rest
  case execution => exact fun a s => ⟨exec_out_of_readable, exec_out_of_not_readable⟩

end Sys2Proof.Machine
end

section
/-! The comparisons (43_compare.md R69 to R71): LT and EQ are two-source instructions whose result is the word 1 or 0. -/

namespace Sys2Proof.Machine

/-- The word of a decided condition (R69). -/
theorem boolWord_decide (p : Prop) [Decidable p] : boolWord (decide p) = if p then 1 else 0 := by
  simp only [boolWord, decide_eq_true_eq]

theorem ltWord_eq_ite : ltWord = fun a b => if a < b then 1 else 0 :=
  funext₂ fun a b => boolWord_decide (a < b)

theorem eqWord_eq_ite : eqWord = fun a b => if a = b then 1 else 0 :=
  funext₂ fun a b => boolWord_decide (a = b)

/-- What an attempt of LT computes, in the words of R70. -/
theorem attempt_lt (a b dst : Param) (s : State) :
    attempt (.lt a b dst) s = attemptBinary (fun a b => if a < b then 1 else 0) a b dst s := by
  rw [attempt, ltWord_eq_ite]

/-- What an attempt of EQ computes, in the words of R71. -/
theorem attempt_eq (a b dst : Param) (s : State) :
    attempt (.eq a b dst) s = attemptBinary (fun a b => if a = b then 1 else 0) a b dst s := by
  rw [attempt, eqWord_eq_ite]

/-- Settles O13: LT is the two-source instruction whose operation is the signed comparison. -/
theorem ltRule : Obligations.LtRule :=
  binaryRule_of (op := .lt) rfl (fun _ _ _ _ _ _ => rfl) attempt_lt

/-- Settles O14: EQ is the two-source instruction whose operation is the test for equality. -/
theorem eqRule : Obligations.EqRule :=
  binaryRule_of (op := .eq) rfl (fun _ _ _ _ _ _ => rfl) attempt_eq

end Sys2Proof.Machine
end

section
/-! The hold signal `in_wait` (10_state.md R24) and the report of a Step (70_reset_and_hazards.md R89). -/

namespace Sys2Proof.Machine

/-! ### The hold signal -/

/-- Opcode 3 stands at `ip` with every check before the input check passed (10_state.md R24). -/
theorem atReadyIn_iff {s : State} : s.atReadyIn = true ↔ ∃ dst, s.fetch = .ok (.inp dst) ∧ s.writable dst := by
  unfold State.atReadyIn
  split
  case h_1 dst hf =>
    cases hw : s.writeTarget dst with
    | ok d =>
      have hd : s.writable dst := (writeTarget_eq_ok.1 hw).1
      exact ⟨fun _ => ⟨dst, hf, hd⟩, fun _ => rfl⟩
    | error e =>
      have hd : ¬ s.writable dst := fun hd => nomatch (writeTarget_of_writable hd).symm.trans hw
      simp [hf, hd]
  case h_2 hnot =>
    exact ⟨nofun, fun ⟨dst, hf, _⟩ => absurd hf (hnot dst)⟩

theorem inWait_iff {s : State} : s.inWait = true ↔
    s.status = .running ∧ (∃ dst, s.fetch = .ok (.inp dst) ∧ s.writable dst) ∧ s.inQueue = [] ∧ s.inClosed = false := by
  simp only [State.inWait, Bool.and_eq_true, decide_eq_true_eq, atReadyIn_iff, List.isEmpty_iff, Bool.not_eq_true',
    and_assoc]

theorem status_of_inWait {s : State} (h : s.inWait = true) : s.status = .running := (inWait_iff.1 h).1

/-- A ready IN on an empty and open port holds, so the Step leaves the state as it is (41_io.md R60; log 5). -/
theorem step_of_inWait {s : State} (h : s.inWait = true) : step s = .next s := by
  obtain ⟨hs, ⟨dst, hf, hd⟩, hq, hc⟩ := inWait_iff.1 h
  have hpop : s.inPop = .error .hold := inPop_eq_error.2 ⟨hq, .inr ⟨hc, rfl⟩⟩
  have hin : attempt (.inp dst) s = .error .hold := attemptIn_eq_error.2 (.inr ⟨hd, hpop⟩)
  rw [step_of_fetch_ok hs hf, exec_eq_finish, hin, finish_hold]

/-! ### The report -/

theorem statusReport_ne_held (s : State) : s.statusReport ≠ .held := by
  unfold State.statusReport
  cases s.status <;> nofun

theorem statusReport_eq_stepped {s : State} : s.statusReport = .stepped ↔ s.status = .running := by
  unfold State.statusReport
  cases s.status <;> simp

theorem statusReport_eq_halted {s : State} : s.statusReport = .halted ↔ s.status = .halted := by
  unfold State.statusReport
  cases s.status <;> simp

theorem statusReport_eq_faulted {s : State} {r : Option FaultRecord} :
    s.statusReport = .faulted r ↔ s.status = .faulted ∧ s.fault = r := by
  unfold State.statusReport
  cases s.status <;> simp

theorem stepReport_of_inWait {s : State} (h : s.inWait = true) : s.stepReport = .held := if_pos h

theorem stepReport_of_not_inWait {s t : State} (h : s.inWait = false) (ht : step s = .next t) :
    s.stepReport = t.statusReport := by
  rw [State.stepReport, h, stepNext_of_step ht]
  rfl

/-- Settles O30: a held Step leaves a running state, and the report of every other Step is the status after it. -/
theorem stepReportsFourOutcomes : Obligations.StepReportsFourOutcomes := by
  intro s t ht
  cases hw : s.inWait with
  | true =>
    obtain rfl : s = t := Host.Outcome.next.inj ((step_of_inWait hw).symm.trans ht)
    simp [stepReport_of_inWait hw, status_of_inWait hw]
  | false =>
    simp [stepReport_of_not_inWait hw ht, statusReport_ne_held, statusReport_eq_stepped, statusReport_eq_halted,
      statusReport_eq_faulted]

end Sys2Proof.Machine
end

section
/-! Encoding and decoding are inverse to each other (30_encoding.md R46, R53): the header that stands for an instruction, and
the instruction word that both sides write for it. -/

namespace Sys2Proof

/-- The mode of parameter `k`, counted from 0; position for a parameter the instruction does not have (R46). -/
def Instr.modeAt (i : Instr) (k : Nat) : Mode := (i.params[k]?.map Param.mode).getD .position

/-- What the instruction word says of an instruction. -/
def Instr.header (i : Instr) : Header := ⟨i.opcode, i.modeAt 0, i.modeAt 1, i.modeAt 2⟩

@[simp] theorem header_op (i : Instr) : i.header.op = i.opcode := rfl

theorem encodeWord_eq_word (i : Instr) : encodeWord i = (i.header.word : Int) := by
  cases i <;>
    simp [encodeWord, Instr.params, Instr.opcode, modeDigits, Header.word, Instr.header, Instr.modeAt, Mode.digit,
      add_assoc]

theorem toInstr_header (i : Instr) : i.header.toInstr (i.params.map Param.word) = i := by cases i <;> rfl

/-- The one check on an instruction is the one check on its header: an absent parameter has no digit. -/
theorem header_legal {i : Instr} (hwf : i.wellFormed = true) : i.header.legal := by
  cases i <;>
    simp_all [Instr.wellFormed, Instr.params, Opcode.roles, Param.fits, Instr.opcode, Header.legal, Instr.header,
      Instr.modeAt, Opcode.arity, Header.immediateTarget]

/-- A legal header, with as many parameter words as its opcode has parameters, is the header of the instruction it makes. -/
theorem header_toInstr {h : Header} (hl : h.legal) (ps : List Int) : (h.toInstr ps).header = h := by
  obtain ⟨op, m1, m2, m3⟩ := h
  obtain ⟨h1, h2, h3, -⟩ := hl
  cases op <;>
    simp_all [Header.toInstr, Instr.header, Instr.modeAt, Instr.params, Instr.opcode, Opcode.arity, Opcode.roles]

theorem params_toInstr {h : Header} {ps : List Int} (hlen : ps.length = h.op.arity) :
    (h.toInstr ps).params.map Param.word = ps := by
  obtain ⟨op, m1, m2, m3⟩ := h
  cases op <;> simp only [Opcode.arity, Opcode.roles, List.length_cons, List.length_nil] at hlen
  case add | mul | lt | eq => obtain ⟨p, q, r, rfl⟩ := List.length_eq_three.1 hlen; rfl
  case jt | jf => obtain ⟨p, q, rfl⟩ := List.length_eq_two.1 hlen; rfl
  case inp | out => obtain ⟨p, rfl⟩ := List.length_eq_one_iff.1 hlen; rfl
  case hlt => obtain rfl := List.length_eq_zero_iff.1 hlen; rfl

/-- A list of words decodes exactly when its first word does and as many words as the opcode has parameters come next. -/
theorem decode_eq_ok {ws rest : List Int} {i : Instr} : decode ws = .ok (i, rest) ↔
    ∃ w h ps, decodeWord w = .ok h ∧ ps.length = h.op.arity ∧ ws = w :: (ps ++ rest) ∧ i = h.toInstr ps := by
  constructor
  · intro hd
    cases ws with
    | nil => cases hd
    | cons w qs =>
      cases hw : decodeWord w with
      | error e => simp [decode, hw] at hd
      | ok h =>
        by_cases hlen : qs.length < h.op.arity
        · simp [decode, hw, hlen] at hd
        · simp only [decode, hw, if_neg hlen, Except.ok.injEq, Prod.mk.injEq] at hd
          obtain ⟨hi, hr⟩ := hd
          refine ⟨w, h, qs.take h.op.arity, hw, List.length_take_of_le (by omega), ?_, hi.symm⟩
          rw [← hr, List.take_append_drop]
  · rintro ⟨w, h, ps, hw, hlen, rfl, rfl⟩
    exact decode_cons_append hw hlen rest

/-- Settles O7: the instruction's word is the word of its header, which is legal, and the header makes the instruction of
its parameter words. -/
theorem decodeOfEncode : Obligations.DecodeOfEncode := by
  intro i rest hwf
  have hw : decodeWord (encodeWord i) = .ok i.header := decodeWord_eq_ok.2 ⟨encodeWord_eq_word i, header_legal hwf⟩
  have hlen : (i.params.map Param.word).length = i.header.op.arity := by simp [params_length]
  exact decode_eq_ok.2 ⟨_, _, _, hw, hlen, rfl, (toInstr_header i).symm⟩

/-- Settles O8: the header that the word decodes to is legal, so it is the header of the instruction it makes, and the word
and the parameter words are read back from that instruction. -/
theorem encodeOfDecode : Obligations.EncodeOfDecode := by
  intro ws rest i hd
  obtain ⟨w, h, ps, hw, hlen, rfl, rfl⟩ := decode_eq_ok.1 hd
  obtain ⟨rfl, hl⟩ := decodeWord_eq_ok.1 hw
  have hword : encodeWord (h.toInstr ps) = (h.word : Int) := by rw [encodeWord_eq_word, header_toInstr hl]
  refine ⟨Machine.wellFormed_toInstr hl ps, ?_⟩
  rw [encode, hword, params_toInstr hlen, List.cons_append]

end Sys2Proof
end

section
/-! What a Step of a running engine can do (30_encoding.md R54): the words it fetches, the ways an attempt completes, and the
causes of each fault (60_exceptions.md R74). -/

namespace Sys2Proof.Machine

/-! ### The words at `ip` -/

/-- The fetch gives an instruction exactly when the instruction is well formed and its words stand at `ip`. -/
theorem fetch_eq_ok_iff_holdsAt {s : State} {i : Instr} :
    s.fetch = .ok i ↔ i.wellFormed = true ∧ s.holdsAt s.ip (encode i) := by
  constructor
  · intro hf
    obtain ⟨w, h, ps, hw, hd, hlen, hps, rfl⟩ := fetch_eq_ok.1 hf
    obtain ⟨hwf, hwords⟩ := encodeOfDecode _ [] _ (decode_cons_append hd hlen [])
    rw [List.append_nil, List.append_nil] at hwords
    exact ⟨hwf, hwords ▸ ⟨hw, hps⟩⟩
  · rintro ⟨hwf, hw, hps⟩
    have hd : decodeWord (encodeWord i) = .ok i.header := decodeWord_eq_ok.2 ⟨encodeWord_eq_word i, header_legal hwf⟩
    have hlen : (i.params.map Param.word).length = i.header.op.arity := by simp [params_length]
    exact fetch_eq_ok.2 ⟨_, _, _, hw, hd, hlen, hps, (toInstr_header i).symm⟩

theorem memRead_ip_of_fetch {s : State} {i : Instr} (hf : s.fetch = .ok i) : s.memRead s.ip = .ok (encodeWord i) :=
  (fetch_eq_ok_iff_holdsAt.1 hf).2.1

/-- HLT has one word and no parameters, so the word alone decides whether it is fetched. -/
theorem fetch_hlt_iff {s : State} : s.fetch = .ok .hlt ↔ s.memRead s.ip = .ok 99 := by
  have hwf : Instr.hlt.wellFormed = true := rfl
  rw [fetch_eq_ok_iff_holdsAt]
  exact ⟨fun ⟨_, hw, _⟩ => hw, fun hw => ⟨hwf, hw, trivial⟩⟩

theorem mode_of_wellFormed_inp {dst : Param} (h : (Instr.inp dst).wellFormed = true) : dst.mode = .position := by
  simpa [Instr.wellFormed, Instr.params, Instr.opcode, Opcode.roles, Param.fits] using h

/-- IN stands at `ip` exactly when the word there is 3, followed by a parameter word. -/
theorem fetch_inp_iff {s : State} {dst : Param} : s.fetch = .ok (.inp dst) ↔
    dst.mode = .position ∧ s.memRead s.ip = .ok 3 ∧ s.memRead (s.ip + 1) = .ok dst.word := by
  obtain ⟨m, d⟩ := dst
  rw [fetch_eq_ok_iff_holdsAt]
  constructor
  · rintro ⟨hwf, hw, hp, -⟩
    obtain rfl : m = .position := mode_of_wellFormed_inp hwf
    exact ⟨rfl, hw, hp⟩
  · rintro ⟨rfl, hw, hp⟩
    exact ⟨rfl, hw, hp, trivial⟩

theorem memRead_ip_of_fetch_out {s : State} {a : Param} (hf : s.fetch = .ok (.out a)) :
    s.memRead s.ip = .ok 4 ∨ s.memRead s.ip = .ok 104 := by
  obtain ⟨m, d⟩ := a
  cases m with
  | position => exact .inl (memRead_ip_of_fetch hf)
  | immediate => exact .inr (memRead_ip_of_fetch hf)

/-! ### Completing -/

section
variable {i : Instr} {s t : State} (h : attempt i s = .ok t)
include h

/-- No instruction changes `N`, the fault record or the closed flag. -/
theorem attempt_unchanged : t.N = s.N ∧ t.fault = s.fault ∧ t.inClosed = s.inClosed := by
  obtain ⟨f, a, b, dst, -, -, rfl⟩ | ⟨dst, v, vs, -, -, -, rfl⟩ | ⟨a, -, rfl⟩ | ⟨a, target, -, ⟨-, rfl⟩ | rfl⟩ |
    ⟨-, rfl⟩ := attempt_eq_ok h <;> exact ⟨rfl, rfl, rfl⟩

theorem attempt_N : t.N = s.N := (attempt_unchanged h).1

theorem attempt_fault : t.fault = s.fault := (attempt_unchanged h).2.1

theorem attempt_inClosed : t.inClosed = s.inClosed := (attempt_unchanged h).2.2

/-- Only HLT sets a status, and it changes nothing else. -/
theorem attempt_status : (i = .hlt ∧ t = { s with status := .halted }) ∨ (i ≠ .hlt ∧ t.status = s.status) := by
  obtain ⟨f, a, b, dst, hi, -, rfl⟩ | ⟨dst, v, vs, rfl, -, -, rfl⟩ | ⟨a, rfl, rfl⟩ | ⟨a, target, hi, ⟨-, rfl⟩ | rfl⟩ |
    ⟨hi, ht⟩ := attempt_eq_ok h
  · exact .inr ⟨by rintro rfl; simp at hi, rfl⟩
  · exact .inr ⟨nofun, rfl⟩
  · exact .inr ⟨nofun, rfl⟩
  · exact .inr ⟨by rintro rfl; simp at hi, rfl⟩
  · exact .inr ⟨by rintro rfl; simp at hi, rfl⟩
  · exact .inl ⟨hi, ht⟩

/-- Only IN takes input, and it takes the head of the queue. -/
theorem attempt_inQueue : t.inQueue = s.inQueue ∨ (∃ dst, i = .inp dst) ∧ ∃ v, s.inQueue = v :: t.inQueue := by
  obtain ⟨f, a, b, dst, -, -, rfl⟩ | ⟨dst, v, vs, rfl, -, hq, rfl⟩ | ⟨a, -, rfl⟩ | ⟨a, target, -, ⟨-, rfl⟩ | rfl⟩ |
    ⟨-, rfl⟩ := attempt_eq_ok h
  case inr.inl => exact .inr ⟨⟨dst, rfl⟩, v, hq⟩
  all_goals exact .inl rfl

/-- Only OUT emits, and it emits one value. -/
theorem attempt_outLog : t.outLog = s.outLog ∨ (∃ a, i = .out a) ∧ ∃ v, t.outLog = s.outLog ++ [v] := by
  obtain ⟨f, a, b, dst, -, -, rfl⟩ | ⟨dst, v, vs, -, -, -, rfl⟩ | ⟨a, rfl, rfl⟩ | ⟨a, target, -, ⟨-, rfl⟩ | rfl⟩ |
    ⟨-, rfl⟩ := attempt_eq_ok h
  case inr.inr.inl => exact .inr ⟨⟨a, rfl⟩, s.value a, rfl⟩
  all_goals exact .inl rfl

/-- A completed instruction goes past its words, or to its target's value, which names a cell, or halts in place. -/
theorem attempt_ip : t.ip = s.ip + (i.opcode.length : Int) ∨
    (∃ a target, (i = .jt a target ∨ i = .jf a target) ∧ t.ip = s.value target ∧ s.inBounds t.ip) ∨
    (i = .hlt ∧ t.ip = s.ip) := by
  obtain ⟨f, a, b, dst, hi, -, rfl⟩ | ⟨dst, v, vs, rfl, -, -, rfl⟩ | ⟨a, rfl, rfl⟩ |
    ⟨a, target, hi, ⟨hin, rfl⟩ | rfl⟩ | ⟨hi, rfl⟩ := attempt_eq_ok h
  · exact .inl (by rcases hi with rfl | rfl | rfl | rfl <;> rfl)
  · exact .inl rfl
  · exact .inl rfl
  · exact .inr (.inl ⟨a, target, hi, rfl, hin⟩)
  · exact .inl (by rcases hi with rfl | rfl <;> rfl)
  · exact .inr (.inr ⟨hi, rfl⟩)

/-- A completed instruction leaves memory, or sets one cell inside it. -/
theorem attempt_mem : t.mem = s.mem ∨ ∃ d v, s.inBounds d ∧ t.mem = (s.setCell d v).mem := by
  obtain ⟨f, a, b, dst, -, hd, rfl⟩ | ⟨dst, v, vs, -, hd, -, rfl⟩ | ⟨a, -, rfl⟩ | ⟨a, target, -, ⟨-, rfl⟩ | rfl⟩ |
    ⟨-, rfl⟩ := attempt_eq_ok h
  case inl => exact .inr ⟨dst.word, _, hd.2, rfl⟩
  case inr.inl => exact .inr ⟨dst.word, v, hd.2, rfl⟩
  all_goals exact .inl rfl

end

/-! ### Faulting -/

/-- The causes of a fault: an address outside memory, at an instruction word that is not HLT's; the word at `ip`; or IN at
a port that is empty and closed. -/
theorem attemptStep_eq_raise {s : State} {k : FaultKind} {o : Option Int}
    (h : attemptStep s = .error (.raise k o)) :
    (k = .addressOutOfBounds ∧ ∃ a, o = some a ∧ ¬ s.inBounds a ∧ s.memRead s.ip ≠ .ok 99) ∨
    (∃ w e, s.memRead s.ip = .ok w ∧ decodeWord w = .error e ∧ k = kindOfWordError e ∧ o = none) ∨
    (k = .inputExhausted ∧ o = none ∧ s.memRead s.ip = .ok 3 ∧ s.inQueue = [] ∧ s.inClosed = true) := by
  have not99 : s.memRead s.ip = .ok 99 → attemptStep s = .ok { s with status := .halted } := fun hw => by
    rw [attemptStep, fetch_hlt_iff.2 hw, except_ok_bind, attempt]
  have hne : s.memRead s.ip ≠ .ok 99 := fun hw => nomatch (not99 hw).symm.trans h
  rcases bind_eq_error.1 h with hf | ⟨i, hf, ha⟩
  · rcases fetch_eq_error.1 hf with ⟨hip, he⟩ | ⟨w, e, hw, hd, he⟩ | ⟨w, hdr, hw, hd, hp⟩
    · cases he
      exact .inl ⟨rfl, s.ip, rfl, hip, hne⟩
    · cases he
      exact .inr (.inl ⟨w, e, hw, hd, rfl, rfl⟩)
    · obtain ⟨j, -, -, hj, he⟩ := fetchParams_eq_error.1 hp
      cases he
      exact .inl ⟨rfl, _, rfl, hj, hne⟩
  · rcases attempt_eq_error ha with ⟨a, hout, he⟩ | ⟨hwf, -⟩ | ⟨dst, rfl, -, hq, ⟨hc, he⟩ | ⟨-, he⟩⟩
    · cases he
      exact .inl ⟨rfl, a, rfl, hout, hne⟩
    · exact nomatch hwf.symm.trans (fetch_eq_ok_iff_holdsAt.1 hf).1
    · cases he
      exact .inr (.inr ⟨rfl, rfl, (fetch_inp_iff.1 hf).2.1, hq, hc⟩)
    · cases he

/-- A Step holds only where `in_wait` says so. -/
theorem inWait_of_attemptStep_hold {s : State} (hs : s.status = .running) (h : attemptStep s = .error .hold) :
    s.inWait = true := by
  rcases bind_eq_error.1 h with hf | ⟨i, hf, ha⟩
  · rcases fetch_eq_error.1 hf with ⟨-, he⟩ | ⟨w, e, -, -, he⟩ | ⟨w, hdr, -, -, hp⟩
    · cases he
    · cases he
    · obtain ⟨j, -, -, -, he⟩ := fetchParams_eq_error.1 hp
      cases he
  · rcases attempt_eq_error ha with ⟨a, -, he⟩ | ⟨-, he⟩ | ⟨dst, rfl, hd, hq, ⟨-, he⟩ | ⟨hc, -⟩⟩
    · cases he
    · cases he
    · cases he
    · exact inWait_iff.2 ⟨hs, ⟨dst, hf, hd⟩, hq, hc⟩

/-! ### The Step -/

/-- The Step of an ended engine (70_reset_and_hazards.md R91). -/
theorem step_of_ended {s : State} (h : s.ended) : step s = .next s := by
  cases hs : s.status with
  | running => exact absurd hs h
  | halted => simp only [step, hs]
  | faulted => simp only [step, hs]

/-- The three outcomes of a Step of a running engine: the fetched instruction completes, a fault is taken, or it holds. -/
theorem step_cases {s t : State} (hs : s.status = .running) (h : step s = .next t) :
    (∃ i, s.fetch = .ok i ∧ attempt i s = .ok t) ∨
    (∃ k o, attemptStep s = .error (.raise k o) ∧ t = s.takeFault k o) ∨
    (s.inWait = true ∧ t = s) := by
  rw [step_of_running hs] at h
  rcases finish_eq_next h with hok | ⟨k, o, he, rfl⟩ | ⟨he, rfl⟩
  · exact .inl (bind_eq_ok.1 hok)
  · exact .inr (.inl ⟨k, o, he, rfl⟩)
  · exact .inr (.inr ⟨inWait_of_attemptStep_hold hs he, rfl⟩)

theorem exec_total (i : Instr) (s : State) : ∃ t, exec i s = .next t := ⟨_, (exec_eq_finish i s).trans (finish_eq s _)⟩

theorem step_total (s : State) : ∃ t, step s = .next t := by
  by_cases hs : s.status = .running
  · exact ⟨_, (step_of_running hs).trans (finish_eq s _)⟩
  · exact ⟨s, step_of_ended hs⟩

theorem step_eq_stepNext (s : State) : step s = .next s.stepNext := by
  obtain ⟨t, ht⟩ := step_total s
  rw [stepNext_of_step ht, ht]

end Sys2Proof.Machine
end

section
/-! The invariant of the engine's states: it holds after reset, and Steps and the host's actions keep it. -/

namespace Sys2Proof.Machine

/-! ### What keeps the invariant -/

/-- A running state that meets the invariant has no fault record. -/
theorem fault_eq_none_of_running {s : State} (hi : s.Inv) (hs : s.status = .running) : s.fault = none := by
  have hnot : ¬ s.fault.isSome = true := fun h => nomatch (hi.fault_iff.1 h).symm.trans hs
  simpa using hnot

/-- A state with no fault record that is not FAULTED meets the invariant by its memory, its `ip` and its halt word. -/
theorem inv_of_no_fault {s : State} (hm : Memory.wf s.N s.mem = true) (hip : 0 ≤ s.ip) (hf : s.fault = none)
    (hs : s.status ≠ .faulted) (hh : s.status = .halted → s.memRead s.ip = .ok 99) : s.Inv where
  memory := hm
  ip_nonneg := hip
  fault_iff := by simp [hf, hs]
  record := fun r hr => nomatch hf.symm.trans hr
  halt_word := hh

theorem attempt_wf {i : Instr} {s t : State} (hm : Memory.wf s.N s.mem = true) (h : attempt i s = .ok t) :
    Memory.wf t.N t.mem = true := by
  rw [attempt_N h]
  rcases attempt_mem h with he | ⟨d, v, ⟨hd0, hdN⟩, he⟩
  · rw [he]; exact hm
  · rw [he]; exact wf_set v hm (by omega)

theorem attempt_ip_nonneg {i : Instr} {s t : State} (hip : 0 ≤ s.ip) (h : attempt i s = .ok t) : 0 ≤ t.ip := by
  rcases attempt_ip h with he | ⟨_, _, -, -, hin⟩ | ⟨-, he⟩
  · omega
  · exact hin.1
  · omega

/-- Completing a fetched instruction keeps the invariant; after HLT the word that was fetched is still at `ip`. -/
theorem inv_of_completes {i : Instr} {s t : State} (hi : s.Inv) (hs : s.status = .running) (hf : s.fetch = .ok i)
    (h : attempt i s = .ok t) : t.Inv := by
  have hfault : t.fault = none := (attempt_fault h).trans (fault_eq_none_of_running hi hs)
  have hm := attempt_wf hi.memory h
  have hip := attempt_ip_nonneg hi.ip_nonneg h
  rcases attempt_status h with ⟨rfl, rfl⟩ | ⟨-, hst⟩
  · have hw : s.memRead s.ip = .ok 99 := fetch_hlt_iff.1 hf
    exact inv_of_no_fault hm hip hfault nofun fun _ => hw
  · rw [hs] at hst
    exact inv_of_no_fault hm hip hfault (by rw [hst]; nofun) (by rw [hst]; nofun)

/-- A fault records an address outside memory when its kind is AddressOutOfBounds, and none otherwise. -/
theorem addr_of_raise {s : State} {k : FaultKind} {o : Option Int} (h : attemptStep s = .error (.raise k o)) :
    (k = .addressOutOfBounds → ∃ a, o = some a ∧ ¬ s.inBounds a) ∧ (k ≠ .addressOutOfBounds → o = none) := by
  rcases attemptStep_eq_raise h with ⟨rfl, a, rfl, ha, -⟩ | ⟨w, e, -, -, rfl, rfl⟩ | ⟨rfl, rfl, -⟩
  · exact ⟨fun _ => ⟨a, rfl, ha⟩, fun hk => absurd rfl hk⟩
  · exact ⟨by cases e <;> nofun, fun _ => rfl⟩
  · exact ⟨nofun, fun _ => rfl⟩

theorem inv_of_takeFault {s : State} {k : FaultKind} {o : Option Int} (hi : s.Inv)
    (h : attemptStep s = .error (.raise k o)) : (s.takeFault k o).Inv where
  memory := hi.memory
  ip_nonneg := hi.ip_nonneg
  fault_iff := by simp
  record := by
    obtain ⟨hout, hnone⟩ := addr_of_raise h
    rintro r ⟨⟩
    exact ⟨rfl, rfl, hout, hnone⟩
  halt_word := nofun

/-- Settles O38, by the outcome of the Step. -/
theorem stepKeepsInvariant : Obligations.StepKeepsInvariant := by
  intro s t hi h
  by_cases hs : s.status = .running
  · rcases step_cases hs h with ⟨i, hf, ha⟩ | ⟨k, o, he, rfl⟩ | ⟨-, rfl⟩
    · exact inv_of_completes hi hs hf ha
    · exact inv_of_takeFault hi he
    · exact hi
  · obtain rfl := Host.Outcome.next.inj ((step_of_ended hs).symm.trans h)
    exact hi

/-! ### Reset and the host's actions -/

/-- Every reset meets the invariant: its memory is an image's, and it is RUNNING at address 0. -/
theorem inv_resetWith (image inInit : List Int) (c : Bool) : (State.resetWith image inInit c).Inv := by
  have hm : Memory.wf image.length (Memory.ofWordsFrom 0 image) = true := by
    simpa only [Nat.zero_add] using wf_ofWordsFrom 0 image
  exact inv_of_no_fault hm (le_refl 0) rfl nofun nofun

/-- Settles O37: the interface's reset is one of the resets with arguments. -/
theorem resetMeetsInvariant : Obligations.ResetMeetsInvariant :=
  ⟨reset_eq_resetWith ▸ inv_resetWith [] [] false, inv_resetWith⟩

/-- The invariant does not look at the input port. -/
theorem inv_of_input {s : State} (hi : s.Inv) (q : List Int) (c : Bool) :
    ({ s with inQueue := q, inClosed := c } : State).Inv where
  memory := hi.memory
  ip_nonneg := hi.ip_nonneg
  fault_iff := hi.fault_iff
  record := fun r hr =>
    have ht := hi.record r hr
    ⟨ht.ip_eq, ht.word_eq, ht.addr_out, ht.addr_none⟩
  halt_word := hi.halt_word

theorem inv_of_applyEvent {e : HostEvent} {s t : State} (hi : s.Inv) (h : s.applyEvent e = .ok t) : t.Inv := by
  cases e with
  | step =>
    obtain rfl := Except.ok.inj h
    exact stepKeepsInvariant s _ hi (step_eq_stepNext s)
  | append v =>
    obtain ⟨-, rfl⟩ := hostAppend_eq_ok.1 h
    exact inv_of_input hi _ _
  | close =>
    obtain ⟨-, rfl⟩ := hostClose_eq_ok.1 h
    exact inv_of_input hi _ _

/-- A run is its first event and the run after it. -/
theorem runEvents_cons_eq_ok {e : HostEvent} {es : List HostEvent} {s t : State} :
    runEvents (e :: es) s = .ok t ↔ ∃ u, s.applyEvent e = .ok u ∧ runEvents es u = .ok t := by
  simp only [runEvents]
  cases s.applyEvent e <;> simp

/-- The induction over a run, once: what every event keeps holds after it. -/
theorem runEvents_induction {P : State → Prop} (hP : ∀ e s t, P s → s.applyEvent e = .ok t → P t)
    {es : List HostEvent} {s t : State} (hs : P s) (h : runEvents es s = .ok t) : P t := by
  induction es generalizing s with
  | nil => exact Except.ok.inj h ▸ hs
  | cons e es ih =>
    obtain ⟨u, hu, hrest⟩ := runEvents_cons_eq_ok.1 h
    exact ih (hP e s u hs hu) hrest

/-- Settles O39: what every event keeps, every run keeps. -/
theorem hostActionsKeepInvariant : Obligations.HostActionsKeepInvariant :=
  fun _ _ _ hi h => runEvents_induction (fun _ _ _ => inv_of_applyEvent) hi h

/-! ### Ended runs -/

theorem sameRun_of_applyEvent {e : HostEvent} {s t : State} (hs : s.ended) (h : s.applyEvent e = .ok t) :
    s.sameRun t := by
  cases e with
  | step =>
    obtain rfl := Except.ok.inj h
    rw [stepNext_of_step (step_of_ended hs)]
    exact ⟨rfl, rfl, rfl, rfl, rfl, rfl⟩
  | append v =>
    obtain ⟨-, rfl⟩ := hostAppend_eq_ok.1 h
    exact ⟨rfl, rfl, rfl, rfl, rfl, rfl⟩
  | close =>
    obtain ⟨-, rfl⟩ := hostClose_eq_ok.1 h
    exact ⟨rfl, rfl, rfl, rfl, rfl, rfl⟩

theorem sameRun_trans {s t u : State} (h : s.sameRun t) (h' : t.sameRun u) : s.sameRun u := by
  simp_all [State.sameRun]

theorem ended_of_sameRun {s t : State} (h : s.sameRun t) (hs : s.ended) : t.ended := by
  rwa [State.ended, ← h.1]

/-- Settles O40: in every state that shows the host the ended run, no event changes what it shows. -/
theorem endedRunsStayEnded : Obligations.EndedRunsStayEnded := fun _ _ _ hs h =>
  runEvents_induction (fun _ _ _ hsame hu => sameRun_trans hsame (sameRun_of_applyEvent (ended_of_sameRun hsame hs) hu))
    ⟨rfl, rfl, rfl, rfl, rfl, rfl⟩ h

end Sys2Proof.Machine
end

section
/-! What no Step looks at: the output log, and the input that stands behind the next value (10_state.md R22, R23). A Step is
the same with more of either, and so the host's input actions may be moved before the Steps they interleave with (R99). -/

namespace Sys2Proof.Machine

/-- The state with other values before its output log, more values at the tail of its input queue, and, when `c` is true,
its input port closed. -/
def State.extendPorts (s : State) (before more : List Int) (c : Bool) : State :=
  { s with inQueue := s.inQueue ++ more, inClosed := s.inClosed || c, outLog := before ++ s.outLog }

/-! ### One instruction -/

section
variable (s : State) (before more : List Int) (c : Bool)

@[simp] theorem extendPorts_read (p : Param) : (s.extendPorts before more c).read p = s.read p := rfl
@[simp] theorem extendPorts_writeTarget (p : Param) :
    (s.extendPorts before more c).writeTarget p = s.writeTarget p := rfl
@[simp] theorem extendPorts_memRead (a : Int) : (s.extendPorts before more c).memRead a = s.memRead a := rfl
@[simp] theorem extendPorts_ip : (s.extendPorts before more c).ip = s.ip := rfl

theorem extendPorts_memWrite (a v : Int) : (s.extendPorts before more c).memWrite a v =
    (s.memWrite a v).map fun t => t.extendPorts before more c := by
  by_cases h : s.inBounds a
  · rw [memWrite_of_inBounds v h]; exact memWrite_of_inBounds v h
  · rw [memWrite_of_not_inBounds v h]; exact memWrite_of_not_inBounds v h

theorem extendPorts_jumpTo (a : Int) : (s.extendPorts before more c).jumpTo a =
    (s.jumpTo a).map fun t => t.extendPorts before more c := by
  by_cases h : s.inBounds a
  · rw [jumpTo_eq_ok.2 ⟨h, rfl⟩]; exact jumpTo_eq_ok.2 ⟨h, rfl⟩
  · rw [jumpTo_eq_error.2 ⟨h, rfl⟩]; exact jumpTo_eq_error.2 ⟨h, rfl⟩

theorem extendPorts_attemptBinary (f : Int → Int → Int) (a b dst : Param) :
    attemptBinary f a b dst (s.extendPorts before more c) =
      (attemptBinary f a b dst s).map fun t => t.extendPorts before more c := by
  simp only [attemptBinary, extendPorts_read, extendPorts_writeTarget, extendPorts_memWrite]
  cases s.read a with
  | error e => rfl
  | ok x =>
    cases s.read b with
    | error e => rfl
    | ok y =>
      cases s.writeTarget dst with
      | error e => rfl
      | ok d =>
        simp only [except_ok_bind]
        cases s.memWrite d (f x y) <;> rfl

theorem extendPorts_attemptOut (a : Param) : attemptOut a (s.extendPorts before more c) =
    (attemptOut a s).map fun t => t.extendPorts before more c := by
  simp only [attemptOut, extendPorts_read]
  cases s.read a with
  | error e => rfl
  | ok x => simp [State.extendPorts, State.outPush, State.advance, Except.map]

theorem extendPorts_attemptJump (taken : Int → Bool) (a target : Param) :
    attemptJump taken a target (s.extendPorts before more c) =
      (attemptJump taken a target s).map fun t => t.extendPorts before more c := by
  simp only [attemptJump, extendPorts_read, extendPorts_jumpTo]
  cases s.read a with
  | error e => rfl
  | ok x =>
    cases s.read target with
    | error e => rfl
    | ok y =>
      simp only [except_ok_bind]
      cases taken x <;> rfl

end

section
variable {s : State} {before more : List Int} {c : Bool}

/-- The queue's head is not changed by what stands behind it; an empty queue must stay as it is, and an open port that it
holds on must stay open. -/
theorem extendPorts_inPop (hq : s.inQueue = [] → more = [] ∧ (s.inClosed = false → c = false)) :
    (s.extendPorts before more c).inPop = s.inPop.map fun r => (r.1, r.2.extendPorts before more c) := by
  cases hs : s.inQueue with
  | cons v vs =>
    have h : s.inPop = .ok (v, { s with inQueue := vs }) := inPop_eq_ok.2 ⟨hs, rfl⟩
    rw [h]
    exact inPop_eq_ok.2 ⟨by simp [State.extendPorts, hs], rfl⟩
  | nil =>
    obtain ⟨rfl, hc⟩ := hq hs
    cases hcl : s.inClosed with
    | true =>
      rw [inPop_eq_error.2 ⟨hs, .inl ⟨hcl, rfl⟩⟩]
      exact inPop_eq_error.2 ⟨by simp [State.extendPorts, hs], .inl ⟨by simp [State.extendPorts, hcl], rfl⟩⟩
    | false =>
      obtain rfl := hc hcl
      rw [inPop_eq_error.2 ⟨hs, .inr ⟨hcl, rfl⟩⟩]
      exact inPop_eq_error.2 ⟨by simp [State.extendPorts, hs], .inr ⟨by simp [State.extendPorts, hcl], rfl⟩⟩

theorem extendPorts_attemptIn {dst : Param}
    (hq : s.writable dst → s.inQueue = [] → more = [] ∧ (s.inClosed = false → c = false)) :
    attemptIn dst (s.extendPorts before more c) = (attemptIn dst s).map fun t => t.extendPorts before more c := by
  simp only [attemptIn, extendPorts_writeTarget]
  cases hd : s.writeTarget dst with
  | error e => rfl
  | ok d =>
    simp only [except_ok_bind, extendPorts_inPop (hq (writeTarget_eq_ok.1 hd).1)]
    cases s.inPop with
    | error e => rfl
    | ok r =>
      have hmap : (Except.ok r : Except Stop _).map (fun r => (r.1, r.2.extendPorts before more c)) =
        .ok (r.1, r.2.extendPorts before more c) := rfl
      simp only [hmap, except_ok_bind, extendPorts_memWrite]
      cases r.2.memWrite d r.1 <;> rfl

theorem extendPorts_attempt {i : Instr}
    (hq : ∀ dst, i = .inp dst → s.writable dst → s.inQueue = [] → more = [] ∧ (s.inClosed = false → c = false)) :
    attempt i (s.extendPorts before more c) = (attempt i s).map fun t => t.extendPorts before more c := by
  cases i with
  | add a b dst => exact extendPorts_attemptBinary s before more c addWord a b dst
  | mul a b dst => exact extendPorts_attemptBinary s before more c mulWord a b dst
  | lt a b dst => exact extendPorts_attemptBinary s before more c ltWord a b dst
  | eq a b dst => exact extendPorts_attemptBinary s before more c eqWord a b dst
  | inp dst => exact extendPorts_attemptIn (hq dst rfl)
  | out a => exact extendPorts_attemptOut s before more c a
  | jt a target => exact extendPorts_attemptJump s before more c isNonzero a target
  | jf a target => exact extendPorts_attemptJump s before more c isZero a target
  | hlt => rfl

/-! ### One Step -/

theorem extendPorts_fetchParams (a : Int) (n : Nat) :
    (s.extendPorts before more c).fetchParams a n = s.fetchParams a n := by
  induction n generalizing a with
  | zero => rfl
  | succ n ih => simp only [State.fetchParams, extendPorts_memRead, ih]

theorem extendPorts_fetch : (s.extendPorts before more c).fetch = s.fetch := by
  simp only [State.fetch, extendPorts_memRead, extendPorts_ip, extendPorts_fetchParams]

theorem extendPorts_finish {r : Except Stop State} {t : State} (h : s.finish r = .next t) :
    (s.extendPorts before more c).finish (r.map fun u => u.extendPorts before more c) =
      .next (t.extendPorts before more c) := by
  rcases finish_eq_next h with rfl | ⟨k, o, rfl, rfl⟩ | ⟨rfl, rfl⟩ <;> rfl

/-- A Step does the same with other values before the output log and more input, provided that no value is added at a closed
port and that nothing is added where the engine holds. -/
theorem step_extendPorts {t : State} (hclosed : s.inClosed = true → more = [])
    (hwait : s.inWait = true → more = [] ∧ c = false) (h : step s = .next t) :
    step (s.extendPorts before more c) = .next (t.extendPorts before more c) := by
  by_cases hs : s.status = .running
  · rw [step_of_running hs] at h
    have hs' : (s.extendPorts before more c).status = .running := hs
    have hatt : attemptStep (s.extendPorts before more c) =
        (attemptStep s).map fun u => u.extendPorts before more c := by
      simp only [attemptStep, extendPorts_fetch]
      cases hf : s.fetch with
      | error e => rfl
      | ok i =>
        refine extendPorts_attempt fun dst hi hd hq => ?_
        cases hc : s.inClosed with
        | true => exact ⟨hclosed hc, nofun⟩
        | false =>
          obtain ⟨hmore, hcf⟩ := hwait (inWait_iff.2 ⟨hs, ⟨dst, hi ▸ hf, hd⟩, hq, hc⟩)
          exact ⟨hmore, fun _ => hcf⟩
    rw [step_of_running hs', hatt]
    exact extendPorts_finish h
  · obtain rfl := Host.Outcome.next.inj ((step_of_ended hs).symm.trans h)
    exact step_of_ended hs

end

/-- Settles O35: nothing is added to the input port. -/
theorem outputLogIsNeverRead : Obligations.OutputLogIsNeverRead := by
  intro s t before h
  have hstep := step_extendPorts (before := before) (fun _ => rfl) (fun _ => ⟨rfl, rfl⟩) h
  simpa only [State.extendPorts, List.append_nil, Bool.or_false] using hstep

/-! ### The host's input before the Steps -/

/-- The state after the host appends values and, when `c` is true, closes the port. -/
def State.supply (s : State) (vs : List Int) (c : Bool) : State :=
  { s with inQueue := s.inQueue ++ vs, inClosed := s.inClosed || c }

@[simp] theorem supply_nil (s : State) : s.supply [] false = s := by simp [State.supply]

/-- The host's input commutes with a Step that does not hold. -/
theorem step_supply {s t : State} {vs : List Int} {c : Bool} (hclosed : s.inClosed = true → vs = [])
    (hwait : s.inWait = true → vs = [] ∧ c = false) (h : step s = .next t) :
    step (s.supply vs c) = .next (t.supply vs c) :=
  step_extendPorts (before := []) hclosed hwait h

theorem step_inClosed {s t : State} (h : step s = .next t) : t.inClosed = s.inClosed := by
  by_cases hs : s.status = .running
  · rcases step_cases hs h with ⟨i, -, ha⟩ | ⟨k, o, -, rfl⟩ | ⟨-, rfl⟩
    · exact attempt_inClosed ha
    · rfl
    · rfl
  · rw [Host.Outcome.next.inj ((step_of_ended hs).symm.trans h)]

theorem stepNext_inClosed (s : State) : s.stepNext.inClosed = s.inClosed := step_inClosed (step_eq_stepNext s)

/-- Settles O46: the append is the host's input of one value. -/
theorem appendCommutesWithStep : Obligations.AppendCommutesWithStep := by
  intro s u v hw hu
  obtain ⟨hopen, rfl⟩ := hostAppend_eq_ok.1 hu
  have hwait : s.inWait = true → [v] = [] ∧ false = false := fun h => nomatch h.symm.trans hw
  have hstep := step_supply (vs := [v]) (c := false) (fun h => nomatch h.symm.trans hopen) hwait (step_eq_stepNext s)
  simp only [State.supply, Bool.or_false] at hstep
  exact ⟨s.stepNext, _, step_eq_stepNext s, hostAppend_eq_ok.2 ⟨(stepNext_inClosed s).trans hopen, rfl⟩, hstep⟩

/-! ### Determinism -/

/-- Through a closed port the host supplies nothing more. -/
theorem no_input_of_closed {es : List HostEvent} {s t : State} (hc : s.inClosed = true) (h : runEvents es s = .ok t) :
    suppliedValues es = [] ∧ closesPort es = false := by
  induction es generalizing s with
  | nil => exact ⟨rfl, rfl⟩
  | cons e es ih =>
    obtain ⟨u, hu, hrest⟩ := runEvents_cons_eq_ok.1 h
    cases e with
    | step =>
      obtain rfl := Except.ok.inj hu
      exact ih ((stepNext_inClosed s).trans hc) hrest
    | append v => exact nomatch hc.symm.trans (hostAppend_eq_ok.1 hu).1
    | close => exact nomatch hc.symm.trans (hostClose_eq_ok.1 hu).1

/-- Every run is its host's input, all of it first, and then some number of Steps: a Step that holds is left out, and every
other one commutes with the input that comes after it. -/
theorem runEvents_eq_supply_iterate {es : List HostEvent} {s t : State} (h : runEvents es s = .ok t) :
    ∃ n, State.stepNext^[n] (s.supply (suppliedValues es) (closesPort es)) = t := by
  induction es generalizing s with
  | nil =>
    obtain rfl := Except.ok.inj h
    exact ⟨0, supply_nil s⟩
  | cons e es ih =>
    obtain ⟨u, hu, hrest⟩ := runEvents_cons_eq_ok.1 h
    obtain ⟨n, hn⟩ := ih hrest
    cases e with
    | step =>
      obtain rfl := Except.ok.inj hu
      cases hw : s.inWait with
      | true =>
        rw [stepNext_of_step (step_of_inWait hw)] at hn
        exact ⟨n, hn⟩
      | false =>
        have hclosed : s.inClosed = true → suppliedValues es = [] := fun hc => (no_input_of_closed hc h).1
        have hstep := step_supply (c := closesPort es) hclosed (fun hw' => nomatch hw'.symm.trans hw)
          (step_eq_stepNext s)
        refine ⟨n + 1, ?_⟩
        rw [Function.iterate_succ_apply, ← hn]
        exact congrArg _ (stepNext_of_step hstep)
    | append v =>
      obtain ⟨-, rfl⟩ := hostAppend_eq_ok.1 hu
      refine ⟨n, ?_⟩
      rw [← hn]
      simp only [State.supply, suppliedValues, closesPort, List.append_assoc, List.singleton_append]
    | close =>
      obtain ⟨-, rfl⟩ := hostClose_eq_ok.1 hu
      obtain ⟨hvs, hcl⟩ := no_input_of_closed rfl hrest
      refine ⟨n, ?_⟩
      rw [← hn]
      simp only [State.supply, suppliedValues, closesPort, hvs, hcl, Bool.or_true, Bool.or_false]

theorem stepNext_iterate_of_ended {s : State} (h : s.ended) (n : Nat) : State.stepNext^[n] s = s :=
  Function.iterate_fixed (stepNext_of_step (step_of_ended h)) n

/-- Two numbers of Steps from one state that both reach an end reach the same. -/
theorem iterate_stepNext_eq_of_ended {s : State} {n m : Nat} (hn : (State.stepNext^[n] s).ended)
    (hm : (State.stepNext^[m] s).ended) : State.stepNext^[n] s = State.stepNext^[m] s := by
  rcases Nat.le_total n m with hle | hle
  · obtain ⟨k, rfl⟩ := Nat.exists_eq_add_of_le' hle
    rw [Function.iterate_add_apply, stepNext_iterate_of_ended hn]
  · obtain ⟨k, rfl⟩ := Nat.exists_eq_add_of_le' hle
    rw [Function.iterate_add_apply, stepNext_iterate_of_ended hm]

/-- Settles O47: with the host's input moved to the front, both runs are Steps from one and the same state. -/
theorem runsAreDeterministic : Obligations.RunsAreDeterministic := by
  intro s t u es es' ht hu hte hue hvs hcl
  obtain ⟨n, rfl⟩ := runEvents_eq_supply_iterate ht
  obtain ⟨m, rfl⟩ := runEvents_eq_supply_iterate hu
  rw [← hvs, ← hcl] at hue ⊢
  rw [iterate_stepNext_eq_of_ended hte hue]
  exact ⟨rfl, rfl, rfl, rfl, rfl, rfl⟩

end Sys2Proof.Machine
end

section
/-! The words that decode, and for every other word which fault it raises (30_encoding.md R45 to R51). -/

namespace Sys2Proof

/-! ### The legal words -/

/-- The words that decode to an opcode are the words of its legal headers. -/
theorem decodes_iff {w : Int} {op : Opcode} : (∃ h, decodeWord w = .ok h ∧ h.op = op) ↔
    ∃ m1 m2 m3, Header.legal ⟨op, m1, m2, m3⟩ ∧ w = (Header.word ⟨op, m1, m2, m3⟩ : Int) := by
  constructor
  · rintro ⟨⟨_, m1, m2, m3⟩, hd, rfl⟩
    obtain ⟨hw, hl⟩ := decodeWord_eq_ok.1 hd
    exact ⟨m1, m2, m3, hl, hw⟩
  · rintro ⟨m1, m2, m3, hl, hw⟩
    exact ⟨_, decodeWord_eq_ok.2 ⟨hw, hl⟩, rfl⟩

/-- The opcode is a conditional jump: a source and a jump target (R43). -/
def Opcode.IsJump (op : Opcode) : Prop := op.roles = [.source, .jumpTarget]

theorem Opcode.IsJump.arity_eq {op : Opcode} (hop : op.IsJump) : op.arity = 2 := congrArg List.length hop

/-- A legal header of a jump is any choice of its two modes. -/
theorem Opcode.IsJump.legal_iff {op : Opcode} (hop : op.IsJump) (m1 m2 m3 : Mode) :
    Header.legal ⟨op, m1, m2, m3⟩ ↔ m3 = .position := by
  have htarget : Header.immediateTarget ⟨op, m1, m2, m3⟩ = false := by
    cases op with
    | jt | jf => rfl
    | add | mul | inp | out | lt | eq | hlt => cases hop
  simp [Header.legal, hop.arity_eq, htarget]

theorem Opcode.IsJump.decodeWord_eq {op : Opcode} (hop : op.IsJump) (m1 m2 : Mode) :
    decodeWord ((op.code + 100 * m1.digit + 1000 * m2.digit : Nat) : Int) = .ok ⟨op, m1, m2, .position⟩ :=
  decodeWord_eq_ok.2 ⟨rfl, (hop.legal_iff m1 m2 _).2 rfl⟩

/-- The four legal words of a jump, one for each choice of its two modes. -/
theorem Opcode.IsJump.decodesExactly {op : Opcode} (hop : op.IsJump) :
    decodesExactly op [(op.code : Int), op.code + 100, op.code + 1000, op.code + 1100] := by
  intro w
  simp only [decodes_iff, hop.legal_iff, Header.word, List.mem_cons, List.not_mem_nil, or_false]
  constructor
  · rintro ⟨m1, m2, m3, rfl, rfl⟩
    cases m1 <;> cases m2 <;> simp [Mode.digit, add_assoc]
  · rintro (rfl | rfl | rfl | rfl)
    · exact ⟨.position, .position, _, rfl, by simp [Mode.digit]⟩
    · exact ⟨.immediate, .position, _, rfl, by simp [Mode.digit]⟩
    · exact ⟨.position, .immediate, _, rfl, by simp [Mode.digit]⟩
    · exact ⟨.immediate, .immediate, _, rfl, by simp [Mode.digit, add_assoc]⟩

/-- IN's one parameter is its write target, so its only legal header has position modes. -/
theorem legal_inp_iff (m1 m2 m3 : Mode) :
    Header.legal ⟨.inp, m1, m2, m3⟩ ↔ m1 = .position ∧ m2 = .position ∧ m3 = .position := by
  cases m1 <;> simp [Header.legal, Opcode.arity, Opcode.roles, Header.immediateTarget]

theorem legal_hlt_iff (m1 m2 m3 : Mode) :
    Header.legal ⟨.hlt, m1, m2, m3⟩ ↔ m1 = .position ∧ m2 = .position ∧ m3 = .position := by
  simp [Header.legal, Opcode.arity, Opcode.roles, Header.immediateTarget]

theorem decodesExactly_inp : decodesExactly .inp [3] := by
  intro w
  simp only [decodes_iff, legal_inp_iff, List.mem_singleton]
  constructor
  · rintro ⟨m1, m2, m3, ⟨rfl, rfl, rfl⟩, rfl⟩
    rfl
  · rintro rfl
    exact ⟨_, _, _, ⟨rfl, rfl, rfl⟩, rfl⟩

theorem decodesExactly_hlt : decodesExactly .hlt [99] := by
  intro w
  simp only [decodes_iff, legal_hlt_iff, List.mem_singleton]
  constructor
  · rintro ⟨m1, m2, m3, ⟨rfl, rfl, rfl⟩, rfl⟩
    rfl
  · rintro rfl
    exact ⟨_, _, _, ⟨rfl, rfl, rfl⟩, rfl⟩

/-- Settles O1, by the shape of the opcode's parameters. -/
theorem legalWordsAreExactlyTheTable : Obligations.LegalWordsAreExactlyTheTable := by
  intro op
  cases op with
  | add => exact Opcode.IsBinary.decodesExactly (op := .add) rfl
  | mul => exact Opcode.IsBinary.decodesExactly (op := .mul) rfl
  | lt => exact Opcode.IsBinary.decodesExactly (op := .lt) rfl
  | eq => exact Opcode.IsBinary.decodesExactly (op := .eq) rfl
  | inp => exact decodesExactly_inp
  | out => exact decodesExactly_out
  | jt => exact Opcode.IsJump.decodesExactly (op := .jt) rfl
  | jf => exact Opcode.IsJump.decodesExactly (op := .jf) rfl
  | hlt => exact decodesExactly_hlt

/-- Settles O9: each sample is the encoding of the instruction it stands for. -/
theorem sampleWordsDecode : Obligations.SampleWordsDecode :=
  ⟨decodeOfEncode (.add (.pos 10) (.imm (-1)) (.pos 10)) [] rfl,
    decodeOfEncode (.mul (.pos 4) (.imm 3) (.pos 4)) [] rfl,
    decodeOfEncode (.inp (.pos 9)) [] rfl,
    decodeOfEncode (.out (.imm 999)) [] rfl,
    decodeOfEncode (.jt (.imm 1) (.pos 9)) [] rfl,
    decodeOfEncode (.jf (.pos 20) (.imm 31)) [] rfl,
    decodeOfEncode (.lt (.imm 8) (.pos 21) (.pos 20)) [] rfl,
    decodeOfEncode (.eq (.pos 9) (.pos 10) (.pos 9)) [] rfl,
    decodeOfEncode .hlt [7] rfl⟩

/-! ### The length -/

theorem code_injective {op op' : Opcode} (h : op.code = op'.code) : op = op' := by
  have ho := ofCode_code op
  rw [h, ofCode_code] at ho
  exact (Option.some.inj ho).symm

theorem encodeWord_mod_hundred (i : Instr) : encodeWord i % 100 = (i.opcode.code : Int) := by
  have h : i.header.word % 100 = i.opcode.code := (wordFields i.header).1
  rw [encodeWord_eq_word, ← h]
  omega

theorem opcode_length_bounds (op : Opcode) : 1 ≤ op.length ∧ op.length ≤ 4 := by cases op <;> decide

/-- The words that a decoded list spends are those of its instruction. -/
theorem length_of_decode {ws rest : List Int} {i : Instr} (h : decode ws = .ok (i, rest)) :
    ws.length = i.opcode.length + rest.length := by
  rw [(encodeOfDecode ws rest i h).2, List.length_append, encode_length]

theorem mod_hundred_of_decode {w : Int} {ps rest : List Int} {i : Instr} (h : decode (w :: ps) = .ok (i, rest)) :
    w % 100 = (i.opcode.code : Int) := by
  have hw : w :: ps = encode i ++ rest := (encodeOfDecode _ rest i h).2
  rw [(List.cons.inj hw).1, encodeWord_mod_hundred]

/-- Settles O6: decoded words are an encoding, whose first word mod 100 is the opcode's code. -/
theorem lengthKnownFromOpcode : Obligations.LengthKnownFromOpcode := by
  refine ⟨fun w v ps qs rest tail i j hmod hi hj => ?_, fun ws rest i => length_of_decode⟩
  have hcode : i.opcode.code = j.opcode.code := by
    have := mod_hundred_of_decode hi
    have := mod_hundred_of_decode hj
    omega
  have hli := length_of_decode hi
  have hlj := length_of_decode hj
  have hb := opcode_length_bounds i.opcode
  rw [code_injective hcode] at hli hb
  omega

/-! ### The words that do not decode -/

theorem ofCode_eq_none {n : Nat} :
    Opcode.ofCode? n = none ↔ n ∉ ([1, 2, 3, 4, 5, 6, 7, 8, 99] : List Nat) := by
  rw [Option.eq_none_iff_forall_ne_some]
  simp only [ne_eq, ofCode_eq_some]
  constructor
  · intro h hmem
    simp only [List.mem_cons, List.not_mem_nil, or_false] at hmem
    rcases hmem with rfl | rfl | rfl | rfl | rfl | rfl | rfl | rfl | rfl
    exacts [h .add rfl, h .mul rfl, h .inp rfl, h .out rfl, h .jt rfl, h .jf rfl, h .lt rfl, h .eq rfl, h .hlt rfl]
  · rintro h op rfl
    cases op <;> exact h (by decide)

theorem decodeWord_of_neg {w : Int} (h : w < 0) : decodeWord w = .error .invalidOpcode := if_pos h

theorem decodeWord_eq_invalidOpcode {w : Nat} :
    decodeWord (w : Int) = .error .invalidOpcode ↔ Opcode.ofCode? (w % 100) = none := by
  have hnn : ¬ ((w : Int) < 0) := by omega
  unfold decodeWord
  rw [if_neg hnn, Int.toNat_natCast]
  split
  · simp [*]
  · rename_i op hop
    simp only [hop, reduceCtorEq, iff_false]
    split
    · nofun
    · split
      · split <;> nofun
      · nofun

/-- With a known opcode, InvalidMode is a digit above the modes or a digit that is no mode of its parameter (R50). -/
theorem decodeWord_eq_invalidMode {w : Nat} {op : Opcode} (hop : w % 100 = op.code) :
    decodeWord (w : Int) = .error .invalidMode ↔ w / 100000 ≠ 0 ∨ paramMode? op.arity 1 (digit w 2) = none ∨
      paramMode? op.arity 2 (digit w 3) = none ∨ paramMode? op.arity 3 (digit w 4) = none := by
  have hnn : ¬ ((w : Int) < 0) := by omega
  simp only [decodeWord, if_neg hnn, Int.toNat_natCast, hop, ofCode_code]
  by_cases hz : w / 100000 = 0
  · rw [if_neg (not_not.2 hz)]
    cases h1 : paramMode? op.arity 1 (digit w 2) with
    | none => simp
    | some m1 =>
      cases h2 : paramMode? op.arity 2 (digit w 3) with
      | none => simp
      | some m2 =>
        cases h3 : paramMode? op.arity 3 (digit w 4) with
        | none => simp
        | some m3 =>
          cases ht : Header.immediateTarget ⟨op, m1, m2, m3⟩ <;> simp [hz, ht]
  · simp [hz]

/-- InvalidWriteMode is raised by the words of the headers that are legal but for an immediate write target (R51). -/
theorem decodeWord_eq_invalidWriteMode {w : Int} : decodeWord w = .error .invalidWriteMode ↔
    ∃ h : Header, w = (h.word : Int) ∧ (h.op.arity < 1 → h.mode1 = .position) ∧
      (h.op.arity < 2 → h.mode2 = .position) ∧ (h.op.arity < 3 → h.mode3 = .position) ∧ h.immediateTarget = true := by
  constructor
  · intro hd
    unfold decodeWord at hd
    split at hd
    · cases hd
    · split at hd
      · cases hd
      · rename_i hneg _ op hop
        split at hd
        · cases hd
        · rename_i hz
          split at hd
          · rename_i m1 m2 m3 h1 h2 h3
            split at hd
            · rename_i ht
              rw [ofCode_eq_some] at hop
              rw [paramMode_eq_some] at h1 h2 h3
              have := word_of_fields ⟨op, m1, m2, m3⟩ hop (by omega) h1.1 h2.1 h3.1
              exact ⟨⟨op, m1, m2, m3⟩, by omega, h1.2, h2.2, h3.2, ht⟩
            · cases hd
          · cases hd
  · rintro ⟨h, rfl, l1, l2, l3, ht⟩
    rw [decodeWord_word l1 l2 l3, if_pos ht]

/-- A mode digit is bad: of a parameter the opcode has, or of one it does not have (R50(a), R50(b)). -/
theorem exists_bad_mode_iff {op : Opcode} {w : Nat} :
    (paramMode? op.arity 1 (digit w 2) = none ∨ paramMode? op.arity 2 (digit w 3) = none ∨
      paramMode? op.arity 3 (digit w 4) = none) ↔
    (∃ k, 1 ≤ k ∧ k ≤ op.arity ∧ digit w (k + 1) ≠ 0 ∧ digit w (k + 1) ≠ 1) ∨
      (∃ k, op.arity < k ∧ k ≤ 3 ∧ digit w (k + 1) ≠ 0) := by
  have harity : op.arity ≤ 3 := by have := opcode_length_bounds op; simp only [Opcode.length] at this; omega
  have hk : ∀ k, paramMode? op.arity k (digit w (k + 1)) = none ↔
      (k ≤ op.arity ∧ digit w (k + 1) ≠ 0 ∧ digit w (k + 1) ≠ 1) ∨ (op.arity < k ∧ digit w (k + 1) ≠ 0) := fun k => by
    rw [paramMode_eq_none]; omega
  constructor
  · rintro (h | h | h)
    · exact ((hk 1).1 h).imp (fun h => ⟨1, by omega, h⟩) (fun h => ⟨1, h.1, by omega, h.2⟩)
    · exact ((hk 2).1 h).imp (fun h => ⟨2, by omega, h⟩) (fun h => ⟨2, h.1, by omega, h.2⟩)
    · exact ((hk 3).1 h).imp (fun h => ⟨3, by omega, h⟩) (fun h => ⟨3, h.1, by omega, h.2⟩)
  · intro h
    obtain ⟨k, hk1, hk3, hbad⟩ : ∃ k, 1 ≤ k ∧ k ≤ 3 ∧ paramMode? op.arity k (digit w (k + 1)) = none := by
      rcases h with ⟨k, hk1, hka, hd⟩ | ⟨k, hka, hk3, hd⟩
      · exact ⟨k, hk1, by omega, (hk k).2 (.inl ⟨hka, hd⟩)⟩
      · exact ⟨k, by omega, hk3, (hk k).2 (.inr ⟨hka, hd⟩)⟩
    obtain rfl | rfl | rfl : k = 1 ∨ k = 2 ∨ k = 3 := by omega
    exacts [.inl hbad, .inr (.inl hbad), .inr (.inr hbad)]

/-- A word has a digit above the modes exactly when it is 100000 or more: its leading digit is one (R50(c)). -/
theorem exists_high_digit_iff {w : Nat} : (∃ k, 5 ≤ k ∧ digit w k ≠ 0) ↔ w / 100000 ≠ 0 := by
  constructor
  · rintro ⟨k, hk, hd⟩ hz
    have hlt : w < 10 ^ k := calc
      w < 10 ^ 5 := by omega
      _ ≤ 10 ^ k := Nat.pow_le_pow_right (by omega) hk
    exact hd (by rw [digit, Nat.div_eq_of_lt hlt])
  · intro hz
    have hw : 10 ^ 5 ≤ w := by omega
    have hlow : 10 ^ Nat.log 10 w ≤ w := Nat.pow_log_le_self 10 (by omega)
    have hhigh : w < 10 ^ Nat.log 10 w * 10 := Nat.lt_pow_succ_log_self (b := 10) (by decide) w
    have hpos : 0 < w / 10 ^ Nat.log 10 w := Nat.div_pos hlow (by positivity)
    have hten : w / 10 ^ Nat.log 10 w < 10 := Nat.div_lt_of_lt_mul hhigh
    exact ⟨Nat.log 10 w, Nat.le_log_of_pow_le (by omega) hw, by rw [digit, Nat.mod_eq_of_lt hten]; exact hpos.ne'⟩

theorem exists_mode_digit_iff {d : Int} : (∃ m : Mode, (m.digit : Int) = d) ↔ d ∈ ([0, 1] : List Int) := by
  simp only [List.mem_cons, List.not_mem_nil, or_false]
  constructor
  · rintro ⟨_ | _, rfl⟩
    exacts [.inl rfl, .inr rfl]
  · rintro (rfl | rfl)
    exacts [⟨.position, rfl⟩, ⟨.immediate, rfl⟩]

theorem exists_binary_code_iff {c : Int} :
    (∃ op : Opcode, op.IsBinary ∧ (op.code : Int) = c) ↔ c ∈ ([1, 2, 7, 8] : List Int) := by
  constructor
  · rintro ⟨op, hop, rfl⟩
    cases op with
    | add | mul | lt | eq => decide
    | inp | out | jt | jf | hlt => cases hop
  · simp only [List.mem_cons, List.not_mem_nil, or_false]
    rintro (rfl | rfl | rfl | rfl)
    exacts [⟨.add, rfl, rfl⟩, ⟨.mul, rfl, rfl⟩, ⟨.lt, rfl, rfl⟩, ⟨.eq, rfl, rfl⟩]

/-- The write target is parameter 1 of IN and parameter 3 of the opcodes with two sources (R51). -/
theorem immediateTarget_iff {h : Header} : h.immediateTarget = true ↔
    (h.op = .inp ∧ h.mode1 = .immediate) ∨ (h.op.IsBinary ∧ h.mode3 = .immediate) := by
  obtain ⟨op, m1, m2, m3⟩ := h
  cases op <;> simp [Header.immediateTarget, Opcode.IsBinary, Opcode.roles]

/-- The words of the headers that are legal but for an immediate write target. -/
theorem immediateTarget_words (w : Int) : (∃ h : Header, w = (h.word : Int) ∧ (h.op.arity < 1 → h.mode1 = .position) ∧
      (h.op.arity < 2 → h.mode2 = .position) ∧ (h.op.arity < 3 → h.mode3 = .position) ∧ h.immediateTarget = true) ↔
    w = 103 ∨ ∃ m1 m2 op : Int, m1 ∈ ([0, 1] : List Int) ∧ m2 ∈ ([0, 1] : List Int) ∧
      op ∈ ([1, 2, 7, 8] : List Int) ∧ w = 10000 + 1000 * m2 + 100 * m1 + op := by
  simp only [immediateTarget_iff, ← exists_mode_digit_iff, ← exists_binary_code_iff]
  constructor
  · rintro ⟨⟨op, m1, m2, m3⟩, rfl, -, h2, h3, ⟨rfl, rfl⟩ | ⟨hop, rfl⟩⟩
    · obtain rfl : m2 = .position := h2 (show 1 < 2 by decide)
      obtain rfl : m3 = .position := h3 (show 1 < 3 by decide)
      exact .inl rfl
    · exact .inr ⟨_, _, _, ⟨m1, rfl⟩, ⟨m2, rfl⟩, ⟨op, hop, rfl⟩, by simp only [Header.word, Mode.digit]; omega⟩
  · rintro (rfl | ⟨_, _, _, ⟨m1, rfl⟩, ⟨m2, rfl⟩, ⟨op, hop, rfl⟩, rfl⟩)
    · exact ⟨⟨.inp, .immediate, .position, .position⟩, rfl, nofun, fun _ => rfl, fun _ => rfl, .inl ⟨rfl, rfl⟩⟩
    · have ha : ∀ k ≤ 3, ¬ op.arity < k := fun k hk => by rw [hop.arity_eq]; omega
      refine ⟨⟨op, m1, m2, .immediate⟩, ?_, fun h => absurd h (ha 1 (by decide)), fun h => absurd h (ha 2 (by decide)),
        fun h => absurd h (ha 3 (by decide)), .inr ⟨hop, rfl⟩⟩
      simp only [Header.word, Mode.digit]
      omega

end Sys2Proof

namespace Sys2Proof.Machine

/-- The record of a fault at a word that was fetched. -/
theorem takeFault_of_memRead {s : State} {w : Int} (hw : s.memRead s.ip = .ok w) (k : FaultKind) (o : Option Int) :
    s.takeFault k o = { s with
      status := .faulted, fault := some { kind := k, ip := s.ip, word := some w, addr := o } } := by
  obtain ⟨hin, rfl⟩ := memRead_eq_ok.1 hw
  simp only [State.takeFault, if_pos hin]

/-- A running engine at a word that does not decode takes the word's fault, whatever follows. -/
theorem step_of_decodeWord_error {s : State} {w : Int} {e : WordError} (hs : s.status = .running)
    (hw : s.memRead s.ip = .ok w) (hd : decodeWord w = .error e) :
    step s = .next (s.takeFault (kindOfWordError e) none) := by
  rw [step_of_fetch_error hs (fetch_eq_error.2 (.inr (.inl ⟨w, e, hw, hd, rfl⟩))), finish_raise]

theorem wordRaises_of_decodeWord {w : Int} {e : WordError} (hd : decodeWord w = .error e) :
    wordRaises w (kindOfWordError e) := fun s hs hw => by
  rw [step_of_decodeWord_error hs hw hd, takeFault_of_memRead hw]

/-- Settles O2: the opcode field of a word is looked up first, and a word that fails raises its fault. -/
theorem invalidOpcodeExactly : Obligations.InvalidOpcodeExactly := by
  intro w
  have hiff := decodeWord_eq_invalidOpcode.trans (ofCode_eq_none (n := w % 100))
  exact ⟨hiff, fun h => wordRaises_of_decodeWord (hiff.2 h)⟩

/-- Settles O3: the sign is the first check of `Decode`. -/
theorem negativeWordsHaveNoOpcode : Obligations.NegativeWordsHaveNoOpcode := fun _ h =>
  ⟨decodeWord_of_neg h, wordRaises_of_decodeWord (decodeWord_of_neg h)⟩

/-- Settles O4: the mode digits give the first two cases, and the word's leading digit the third. -/
theorem invalidModeExactly : Obligations.InvalidModeExactly := by
  intro w op hop
  refine ⟨?_, wordRaises_of_decodeWord⟩
  rw [decodeWord_eq_invalidMode hop, exists_bad_mode_iff, ← exists_high_digit_iff, or_comm, or_assoc]

/-- Settles O5, by the headers that are legal but for an immediate write target. -/
theorem invalidWriteModeExactly : Obligations.InvalidWriteModeExactly := fun w =>
  ⟨decodeWord_eq_invalidWriteMode.trans (immediateTarget_words w), wordRaises_of_decodeWord⟩

end Sys2Proof.Machine
end

section
/-! The rules of IN, JT, JF and HLT (41_io.md R63; 42_jump.md R67, R68; 44_halt.md R72), the meaning of an immediate write
target, and the frames of all nine instructions. -/

namespace Sys2Proof.Machine

/-! ### IN -/

section
variable {dst : Param} {s : State}

theorem exec_inp_of_head {v : Int} {vs : List Int} (hd : s.writable dst) (hq : s.inQueue = v :: vs) :
    exec (.inp dst) s = .next (({ s with inQueue := vs }.setCell dst.word v).advance 2) := by
  rw [exec_eq_finish, attempt, attemptIn_eq_ok.2 ⟨hd, v, vs, hq, rfl⟩, finish_ok]

/-- A write target that fails stops IN before the port is looked at (D6). -/
theorem exec_inp_of_bad_target {k : FaultKind} {o : Option Int} (hd : s.writeTarget dst = .error (.raise k o)) :
    exec (.inp dst) s = .next (s.takeFault k o) := by
  rw [exec_eq_finish, attempt, attemptIn_eq_error.2 (.inl hd), finish_raise]

theorem exec_inp_of_exhausted (hd : s.writable dst) (hq : s.inQueue = []) (hc : s.inClosed = true) :
    exec (.inp dst) s = .next (s.takeFault .inputExhausted none) := by
  have hpop : s.inPop = .error (.raise .inputExhausted none) := inPop_eq_error.2 ⟨hq, .inl ⟨hc, rfl⟩⟩
  rw [exec_eq_finish, attempt, attemptIn_eq_error.2 (.inr ⟨hd, hpop⟩), finish_raise]

theorem exec_inp_of_hold (hd : s.writable dst) (hq : s.inQueue = []) (hc : s.inClosed = false) :
    exec (.inp dst) s = .next s := by
  have hpop : s.inPop = .error .hold := inPop_eq_error.2 ⟨hq, .inr ⟨hc, rfl⟩⟩
  rw [exec_eq_finish, attempt, attemptIn_eq_error.2 (.inr ⟨hd, hpop⟩), finish_hold]

end

/-- Settles O15: IN's one word, and its four answers by its target, its queue and the closed flag. -/
theorem inRule : Obligations.InRule := by
  refine ⟨decodesExactly_inp, ?immediate_target, fun p rest => ?operand, ownChecksFirst_all .inp, fun dst s hm => ?execution⟩
  case immediate_target => exact (invalidWriteModeExactly 103).1.2 (.inl rfl)
  case operand => exact decodeOfEncode (.inp ⟨.position, p⟩) rest rfl
  case execution =>
    refine ⟨fun v vs hd hq => ?_, fun hd => ?_, fun hd => exec_inp_of_exhausted ⟨hm, hd⟩,
      fun hd => exec_inp_of_hold ⟨hm, hd⟩⟩
    · exact ⟨_, exec_inp_of_head ⟨hm, hd⟩ hq, afterStore_setCell_advance (s := { s with inQueue := vs }) v 2 hd⟩
    · exact exec_inp_of_bad_target (writeTarget_eq_error.2 (.inr ⟨hm, hd, rfl⟩))

/-! ### The jumps -/

/-- What `exec` answers for an instruction whose attempt is `attemptJump`: where it goes, or the first failing check. -/
theorem exec_of_attemptJump {i : Instr} {taken : Int → Prop} [DecidablePred taken] {a target : Param} {s : State}
    (hi : attempt i s = attemptJump (fun x => decide (taken x)) a target s) :
    (s.readable a → s.readable target → taken (s.value a) → s.inBounds (s.value target) →
      exec i s = .next { s with ip := s.value target }) ∧
    (s.readable a → s.readable target → ¬ taken (s.value a) → exec i s = .next { s with ip := s.ip + 3 }) ∧
    (¬ s.readable a → exec i s = .next (s.takeFault .addressOutOfBounds (some a.word))) ∧
    (s.readable a → ¬ s.readable target → exec i s = .next (s.takeFault .addressOutOfBounds (some target.word))) ∧
    (s.readable a → s.readable target → taken (s.value a) → ¬ s.inBounds (s.value target) →
      exec i s = .next (s.takeFault .addressOutOfBounds (some (s.value target)))) := by
  rw [exec_eq_finish, hi]
  refine ⟨fun ha ht hk hin => ?goes, fun ha ht hk => ?passes, fun ha => ?condition, fun ha ht => ?target,
    fun ha ht hk hin => ?destination⟩
  case goes => rw [attemptJump_eq_ok.2 ⟨ha, ht, .inl ⟨decide_eq_true hk, hin, rfl⟩⟩, finish_ok]
  case passes =>
    rw [attemptJump_eq_ok.2 ⟨ha, ht, .inr ⟨decide_eq_false hk, rfl⟩⟩]
    rfl
  case condition => rw [attemptJump_eq_error.2 (.inl ⟨ha, rfl⟩), finish_raise]
  case target => rw [attemptJump_eq_error.2 (.inr (.inl ⟨ha, ht, rfl⟩)), finish_raise]
  case destination =>
    rw [attemptJump_eq_error.2 (.inr (.inr ⟨ha, ht, decide_eq_true hk, hin, rfl⟩)), finish_raise]

/-- The rule of a conditional jump, from the two facts that tell one from the other: which instruction its decoded words
make, and which condition its attempt tests. -/
theorem jumpRule_of {op : Opcode} {mk : Param → Param → Instr} {taken : Int → Prop} [DecidablePred taken]
    (hop : op.IsJump)
    (hmk : ∀ m1 m2 p1 p2, Header.toInstr ⟨op, m1, m2, .position⟩ [p1, p2] = mk ⟨m1, p1⟩ ⟨m2, p2⟩)
    (hf : ∀ a target s, attempt (mk a target) s = attemptJump (fun x => decide (taken x)) a target s) :
    jumpRule op mk [(op.code : Int), op.code + 100, op.code + 1000, op.code + 1100] taken := by
  refine ⟨hop.decodesExactly, fun m1 m2 p1 p2 rest => ?operands, ownChecksFirst_all op,
    fun a target s => exec_of_attemptJump (hf a target s)⟩
  case operands =>
    rw [← hmk]
    exact decode_cons_append (hop.decodeWord_eq m1 m2) (ps := [p1, p2]) hop.arity_eq.symm rest

/-- Settles O17: JT is the conditional jump that tests for any value but 0. -/
theorem jtRule : Obligations.JtRule := jumpRule_of (op := .jt) rfl (fun _ _ _ _ => rfl) (fun _ _ _ => rfl)

/-- Settles O18: JF is the conditional jump that tests for 0. -/
theorem jfRule : Obligations.JfRule := jumpRule_of (op := .jf) rfl (fun _ _ _ _ => rfl) (fun _ _ _ => rfl)

/-! ### HLT -/

/-- Settles O19: HLT's one word, `199` having a digit for a parameter HLT does not have, and its one answer. -/
theorem hltRule : Obligations.HltRule := by
  refine ⟨decodesExactly_hlt, ?_, fun rest => decodeOfEncode .hlt rest rfl, ownChecksFirst_all .hlt, fun s => rfl⟩
  exact (invalidModeExactly 199 .hlt rfl).1.2 (.inr (.inl ⟨1, by decide, by decide, by decide⟩))

/-! ### An immediate write target -/

/-- Settles O21: the write target is the last check of a two-source instruction and the first of IN. -/
theorem illFormedTargetFaults : Obligations.IllFormedTargetFaults := by
  intro a b dst s hm
  have hd : s.writeTarget dst = .error (.raise .invalidWriteMode none) := writeTarget_eq_error.2 (.inl ⟨hm, rfl⟩)
  refine ⟨fun ha hb i hi => ?_, exec_inp_of_bad_target hd⟩
  have hbin : ∀ f, attemptBinary f a b dst s = .error (.raise .invalidWriteMode none) :=
    fun f => attemptBinary_eq_error.2 (.inr (.inr ⟨ha, hb, hd⟩))
  have hatt : attempt i s = .error (.raise .invalidWriteMode none) := by
    simp only [List.mem_cons, List.not_mem_nil, or_false] at hi
    rcases hi with rfl | rfl | rfl | rfl <;> exact hbin _
  rw [exec_eq_finish, hatt, finish_raise]

/-! ### Frames -/

/-- The three outcomes of an instruction: it completes, takes a fault, or leaves the state. -/
theorem exec_cases {i : Instr} {s t : State} (h : exec i s = .next t) :
    attempt i s = .ok t ∨ (∃ k o, t = s.takeFault k o) ∨ t = s := by
  rw [exec_eq_finish] at h
  rcases finish_eq_next h with hok | ⟨k, o, -, ht⟩ | ⟨-, ht⟩
  exacts [.inl hok, .inr (.inl ⟨k, o, ht⟩), .inr (.inr ht)]

section
variable {i : Instr} {s t : State} (h : exec i s = .next t)
include h

theorem exec_N : t.N = s.N := by
  rcases exec_cases h with ha | ⟨k, o, rfl⟩ | rfl
  exacts [attempt_N ha, rfl, rfl]

theorem exec_inClosed : t.inClosed = s.inClosed := by
  rcases exec_cases h with ha | ⟨k, o, rfl⟩ | rfl
  exacts [attempt_inClosed ha, rfl, rfl]

theorem exec_inQueue : t.inQueue = s.inQueue ∨ (∃ dst, i = .inp dst) ∧ ∃ v, s.inQueue = v :: t.inQueue := by
  rcases exec_cases h with ha | ⟨k, o, rfl⟩ | rfl
  exacts [attempt_inQueue ha, .inl rfl, .inl rfl]

theorem exec_outLog : t.outLog = s.outLog ∨ (∃ a, i = .out a) ∧ ∃ v, t.outLog = s.outLog ++ [v] := by
  rcases exec_cases h with ha | ⟨k, o, rfl⟩ | rfl
  exacts [attempt_outLog ha, .inl rfl, .inl rfl]

/-- An instruction other than HLT leaves status and fault, or takes a fault in place. -/
theorem exec_status (hi : i ≠ .hlt) :
    (t.status = s.status ∧ t.fault = s.fault) ∨ (t.status = .faulted ∧ t.ip = s.ip) := by
  rcases exec_cases h with ha | ⟨k, o, rfl⟩ | rfl
  · rcases attempt_status ha with ⟨hlt, -⟩ | ⟨-, hs⟩
    · exact absurd hlt hi
    · exact .inl ⟨hs, attempt_fault ha⟩
  · exact .inr ⟨rfl, rfl⟩
  · exact .inl ⟨rfl, rfl⟩

end

/-- The parameter that an instruction stores to, if it has one (30_encoding.md R43). -/
def writeTargetOf : Instr → Option Param
  | .add _ _ dst => some dst
  | .mul _ _ dst => some dst
  | .lt _ _ dst => some dst
  | .eq _ _ dst => some dst
  | .inp dst => some dst
  | .out _ => none
  | .jt _ _ => none
  | .jf _ _ => none
  | .hlt => none

/-- A completed instruction changes no cell but the one its write target names. -/
theorem attempt_memRead {i : Instr} {s t : State} (h : attempt i s = .ok t) {c : Int}
    (hc : ∀ dst, writeTargetOf i = some dst → c ≠ dst.word) : t.memRead c = s.memRead c := by
  obtain ⟨f, a, b, dst, hi, hd, rfl⟩ | ⟨dst, v, vs, rfl, hd, -, rfl⟩ | ⟨a, rfl, rfl⟩ |
    ⟨a, target, -, ⟨-, rfl⟩ | rfl⟩ | ⟨-, rfl⟩ := attempt_eq_ok h
  · have hdst : writeTargetOf i = some dst := by rcases hi with rfl | rfl | rfl | rfl <;> rfl
    exact memRead_setCell_of_ne _ hd.2 (hc dst hdst)
  · exact memRead_setCell_of_ne (s := { s with inQueue := vs }) v hd.2 (hc dst rfl)
  all_goals rfl

theorem exec_memRead {i : Instr} {s t : State} (h : exec i s = .next t) {c : Int}
    (hc : ∀ dst, writeTargetOf i = some dst → c ≠ dst.word) : t.memRead c = s.memRead c := by
  rcases exec_cases h with ha | ⟨k, o, rfl⟩ | rfl
  exacts [attempt_memRead ha hc, rfl, rfl]

/-- A fault that writes a new record stores nothing. -/
theorem exec_memRead_of_fault {i : Instr} {s t : State} (h : exec i s = .next t) (hf : t.fault ≠ s.fault) (c : Int) :
    t.memRead c = s.memRead c := by
  rcases exec_cases h with ha | ⟨k, o, rfl⟩ | rfl
  exacts [absurd (attempt_fault ha) hf, rfl, rfl]

/-- Settles O22: the five instructions have `dst` as their write target, and none of them is OUT or HLT. -/
theorem storingFrame : Obligations.StoringFrame := by
  intro a b dst s t i hi h
  simp only [List.mem_cons, List.not_mem_nil, or_false] at hi
  have hdst : writeTargetOf i = some dst := by rcases hi with rfl | rfl | rfl | rfl | rfl <;> rfl
  have hhlt : i ≠ .hlt := by rintro rfl; cases hdst
  refine ⟨fun c hc => exec_memRead h ?_, fun ⟨_, hf⟩ => exec_memRead_of_fault h hf, exec_N h, exec_inClosed h, ?_, ?_,
    exec_status h hhlt⟩
  · rintro d hd
    obtain rfl := Option.some.inj (hdst.symm.trans hd)
    exact hc
  · exact (exec_outLog h).resolve_right fun ⟨⟨p, hp⟩, _⟩ => by subst hp; cases hdst
  · exact (exec_inQueue h).imp_right fun ⟨⟨p, hp⟩, hv⟩ => ⟨by subst hp; cases hdst; rfl, hv⟩

/-- Settles O23: the four instructions have no write target, and none of them is IN. -/
theorem nonStoringFrame : Obligations.NonStoringFrame := by
  intro a target s t i hi h
  simp only [List.mem_cons, List.not_mem_nil, or_false] at hi
  have hdst : writeTargetOf i = none := by rcases hi with rfl | rfl | rfl | rfl <;> rfl
  refine ⟨fun c => exec_memRead h fun d hd => (nomatch hdst.symm.trans hd), exec_N h, ?_, exec_inClosed h, fun hne => ?_,
    fun hhlt => ?_, exec_status h⟩
  · exact (exec_inQueue h).resolve_right fun ⟨⟨p, hp⟩, _⟩ => by subst hp; cases hdst
  · exact (exec_outLog h).resolve_right fun ⟨⟨p, hp⟩, _⟩ => by subst hp; exact hne (by simpa using hi)
  · subst hhlt
    obtain rfl := Host.Outcome.next.inj h
    exact ⟨rfl, rfl⟩

end Sys2Proof.Machine
end

section
/-! The rules of the Step (30_encoding.md R54): which instruction it runs, which fault it takes and what it then leaves,
where `ip` may go, and what the ports may do. -/

namespace Sys2Proof.Machine

/-! ### The instruction that runs -/

/-- A Step is `exec` of the well-formed instruction whose words stand at `ip`. -/
theorem step_of_holdsAt {s : State} {i : Instr} (hs : s.status = .running) (hwf : i.wellFormed = true)
    (h : s.holdsAt s.ip (encode i)) : step s = exec i s :=
  step_of_fetch_ok hs (fetch_eq_ok_iff_holdsAt.2 ⟨hwf, h⟩)

theorem holdsAt_of_append {s : State} {a : Int} {ws vs : List Int} (h : s.holdsAt a (ws ++ vs)) : s.holdsAt a ws := by
  induction ws generalizing a with
  | nil => trivial
  | cons w ws ih => exact ⟨h.1, ih h.2⟩

/-- Settles O24: words that decode are an encoding and the rest. -/
theorem stepRunsDecodedInstruction : Obligations.StepRunsDecodedInstruction := by
  intro s ws rest i hs hws hd
  obtain ⟨hwf, rfl⟩ := encodeOfDecode ws rest i hd
  exact step_of_holdsAt hs hwf (holdsAt_of_append hws)

/-- Settles O31: however an attempt ends, there is a next state. -/
theorem nothingIsUndefined : Obligations.NothingIsUndefined := ⟨step_total, exec_total⟩

/-- Settles O36: the Step completes the ADD, and the stored word is what stands at `ip` when `d` is the next address. -/
theorem storeIntoCodeIsSeenNext : Obligations.StoreIntoCodeIsSeenNext := by
  intro s a b d hs hwords ha hb hd
  have hexec := exec_of_attemptBinary (i := .add a b (.pos d)) (f := addWord) (s := s) rfl rfl
  obtain ⟨t, ht, hcell, -, hrest⟩ := hexec.1 ha hb hd
  have hst : t.status = .running := by rw [hrest]; exact hs
  have hip : t.ip = s.ip + 4 := by rw [hrest]; rfl
  refine ⟨t, (step_of_holdsAt hs rfl hwords).trans ht, hst, hip, hcell, fun hnext e he => ?_⟩
  have hword : t.memRead t.ip = .ok (s.value a + s.value b) := by
    rw [hip, ← hnext]
    exact hcell
  exact step_of_decodeWord_error hst hword he

/-! ### Faults -/

/-- The record of a fault of the fetch itself: there is no word. -/
theorem takeFault_of_not_inBounds {s : State} (hip : ¬ s.inBounds s.ip) (k : FaultKind) (o : Option Int) :
    s.takeFault k o = { s with
      status := .faulted, fault := some { kind := k, ip := s.ip, word := none, addr := o } } := by
  simp only [State.takeFault, if_neg hip]

/-- Settles O25, by the three ways a fetch stops. -/
theorem fetchFaultsInOrder : Obligations.FetchFaultsInOrder := by
  intro s hs
  refine ⟨fun hip => ?no_cell, fun w e hw hd => ?bad_word, fun w h k hw hd hk hbefore hmissing => ?no_parameter⟩
  case no_cell =>
    rw [step_of_fetch_error hs (fetch_eq_error.2 (.inl ⟨hip, rfl⟩)), finish_raise, takeFault_of_not_inBounds hip]
  case bad_word => exact wordRaises_of_decodeWord hd s hs hw
  case no_parameter =>
    rw [(ownChecksFirst_all h.op s w h hs hw hd rfl).1 k hk hbefore hmissing, takeFault_of_memRead hw]

/-- A Step of a running engine that ends FAULTED has taken a fault: an instruction that completes sets no such status. -/
theorem raise_of_faulted {s t : State} (hs : s.status = .running) (h : step s = .next t) (ht : t.status = .faulted) :
    ∃ k o, attemptStep s = .error (.raise k o) ∧ t = s.takeFault k o := by
  rcases step_cases hs h with ⟨i, -, ha⟩ | hraise | ⟨-, rfl⟩
  · rcases attempt_status ha with ⟨-, rfl⟩ | ⟨-, hst⟩
    · cases ht
    · exact nomatch hs.symm.trans (hst.symm.trans ht)
  · exact hraise
  · exact nomatch hs.symm.trans ht

/-- Settles O26: `takeFault` writes the record and the status, and the fault's cause gives the address. -/
theorem faultEntryIsPrecise : Obligations.FaultEntryIsPrecise := by
  intro s t hs h ht
  obtain ⟨k, o, he, rfl⟩ := raise_of_faulted hs h ht
  obtain ⟨hout, hnone⟩ := addr_of_raise he
  refine ⟨k, _, o, rfl, rfl, fun w => ?_, hout, hnone⟩
  rw [memRead_eq_ok]
  by_cases hip : s.inBounds s.ip <;> simp [hip]

/-- Settles O27, by the cause of the fault. -/
theorem faultKindsHaveTheirCauses : Obligations.FaultKindsHaveTheirCauses := by
  intro s t r hs h ht hr
  obtain ⟨k, o, he, rfl⟩ := raise_of_faulted hs h ht
  obtain rfl := Option.some.inj hr
  rcases attemptStep_eq_raise he with ⟨rfl, a, rfl, ha, hne⟩ | ⟨w, e, hw, hd, rfl, rfl⟩ | ⟨rfl, rfl, hw, hq, hc⟩
  · exact ⟨nofun, nofun, nofun, nofun, fun _ => ⟨a, rfl, ha, hne⟩⟩
  · cases e with
    | invalidOpcode => exact ⟨fun _ => ⟨w, hw, hd⟩, nofun, nofun, nofun, nofun⟩
    | invalidMode => exact ⟨nofun, fun _ => ⟨w, hw, hd⟩, nofun, nofun, nofun⟩
    | invalidWriteMode => exact ⟨nofun, nofun, fun _ => ⟨w, hw, hd⟩, nofun, nofun⟩
  · exact ⟨nofun, nofun, nofun, fun _ => ⟨hw, hq, hc⟩, nofun⟩

/-- Settles O28: the codes are written in the model as the tables list them. -/
theorem statusAndFaultCodes : Obligations.StatusAndFaultCodes := ⟨rfl, rfl, rfl, rfl, rfl, rfl, rfl, rfl⟩

/-- Settles O29: an ended engine does not hold, so it reports the status it is in. -/
theorem endedStatesAbsorb : Obligations.EndedStatesAbsorb := by
  intro s
  have hreport : s.ended → s.stepReport = s.statusReport := fun hs =>
    stepReport_of_not_inWait (Bool.eq_false_iff.2 fun hw => hs (status_of_inWait hw)) (step_of_ended hs)
  constructor
  · intro hs
    have he : s.ended := by rw [State.ended, hs]; nofun
    exact ⟨step_of_ended he, (hreport he).trans (statusReport_eq_halted.2 hs)⟩
  · intro hs
    have he : s.ended := by rw [State.ended, hs]; nofun
    exact ⟨step_of_ended he, (hreport he).trans (statusReport_eq_faulted.2 ⟨hs, rfl⟩)⟩

/-! ### The status and `ip` -/

/-- Settles O32: HLT, a fault and a hold leave `ip`, and every other instruction completes with the status it began in. -/
theorem ipMovesOnlyOnCompletion : Obligations.IpMovesOnlyOnCompletion := by
  intro s t hs h
  rcases step_cases hs h with ⟨i, hf, ha⟩ | ⟨k, o, -, rfl⟩ | ⟨-, rfl⟩
  · rcases attempt_status ha with ⟨-, rfl⟩ | ⟨hne, hst⟩
    · exact .inl rfl
    · refine .inr ⟨i, hf, hst.trans hs, attempt_fault ha, ?_⟩
      rcases attempt_ip ha with hseq | hjump | ⟨hhlt, -⟩
      exacts [.inl hseq, .inr hjump, absurd hhlt hne]
  · exact .inl rfl
  · exact .inl rfl

/-- Settles O33: only HLT sets HALTED, and HLT is fetched exactly at the word 99. -/
theorem onlyHltHalts : Obligations.OnlyHltHalts := by
  intro s t hs h
  constructor
  · intro ht
    rcases step_cases hs h with ⟨i, hf, ha⟩ | ⟨k, o, -, rfl⟩ | ⟨-, rfl⟩
    · rcases attempt_status ha with ⟨rfl, -⟩ | ⟨-, hst⟩
      · exact fetch_hlt_iff.1 hf
      · exact nomatch hs.symm.trans (hst.symm.trans ht)
    · cases ht
    · exact nomatch hs.symm.trans ht
  · intro hw
    have hexec : step s = .next { s with status := .halted } := step_of_fetch_ok hs (fetch_hlt_iff.2 hw)
    rw [← Host.Outcome.next.inj (hexec.symm.trans h)]

/-! ### The ports -/

/-- Settles O34: a Step that changes a port is IN or OUT, whose words are 3, and 4 and 104. -/
theorem stepKeepsPortDiscipline : Obligations.StepKeepsPortDiscipline := by
  intro s t h
  by_cases hs : s.status = .running
  · rcases step_cases hs h with ⟨i, hf, ha⟩ | ⟨k, o, -, rfl⟩ | ⟨-, rfl⟩
    · refine ⟨attempt_N ha, attempt_inClosed ha, (attempt_inQueue ha).imp_right ?_, (attempt_outLog ha).imp_right ?_⟩
      · rintro ⟨⟨dst, rfl⟩, hv⟩
        exact ⟨(fetch_inp_iff.1 hf).2.1, hv⟩
      · rintro ⟨⟨a, rfl⟩, hv⟩
        exact ⟨memRead_ip_of_fetch_out hf, hv⟩
    · exact ⟨rfl, rfl, .inl rfl, .inl rfl⟩
    · exact ⟨rfl, rfl, .inl rfl, .inl rfl⟩
  · obtain rfl := Host.Outcome.next.inj ((step_of_ended hs).symm.trans h)
    exact ⟨rfl, rfl, .inl rfl, .inl rfl⟩

/-- Settles O44: the parameter word is the address that IN writes to. -/
theorem inWaitExactly : Obligations.InWaitExactly := by
  intro s
  refine ⟨?_, step_of_inWait⟩
  rw [inWait_iff]
  constructor
  · rintro ⟨hs, ⟨dst, hf, -, hd⟩, hq, hc⟩
    obtain ⟨-, hw, hp⟩ := fetch_inp_iff.1 hf
    exact ⟨hs, hw, ⟨dst.word, hp, hd⟩, hq, hc⟩
  · rintro ⟨hs, hw, ⟨d, hp, hd⟩, hq, hc⟩
    exact ⟨hs, ⟨⟨.position, d⟩, fetch_inp_iff.2 ⟨rfl, hw, hp⟩, rfl, hd⟩, hq, hc⟩

/-- Settles O45: both actions look at the closed flag alone. -/
theorem hostActsOnOpenPortOnly : Obligations.HostActsOnOpenPortOnly := by
  intro s v
  refine ⟨fun hopen => ⟨hostAppend_eq_ok.2 ⟨hopen, rfl⟩, hostClose_eq_ok.2 ⟨hopen, rfl⟩⟩, fun hclosed => ?_⟩
  simp [State.hostAppend, State.hostClose, hclosed]

/-- Fetching does not look at the input port. -/
theorem fetch_supply (s : State) (vs : List Int) (c : Bool) : (s.supply vs c).fetch = s.fetch :=
  extendPorts_fetch (before := []) (more := vs) (c := c)

/-- Settles O43: the host's action gives the IN that holds its value, or the end of the stream. -/
theorem inPopAndHold : Obligations.InPopAndHold := by
  refine ⟨fun s v vs hq => inPop_eq_ok.2 ⟨hq, rfl⟩, fun s hq hc => inPop_eq_error.2 ⟨hq, .inl ⟨hc, rfl⟩⟩,
    fun s hq hc => inPop_eq_error.2 ⟨hq, .inr ⟨hc, rfl⟩⟩, fun s hw => ⟨step_of_inWait hw, fun v u hu => ?append,
    fun u hu => ?close⟩⟩
  case append =>
    obtain ⟨hs, ⟨dst, hf, hd⟩, hq, -⟩ := inWait_iff.1 hw
    obtain ⟨-, hu⟩ := hostAppend_eq_ok.1 hu
    have hsu : u.status = .running := by rw [hu]; exact hs
    have hfu : u.fetch = .ok (.inp dst) := by rw [hu, ← hf, ← fetch_supply s [v] false, State.supply, Bool.or_false]
    have hdu : u.writable dst := by rw [hu]; exact hd
    have hqu : u.inQueue = [v] := by rw [hu, hq]; rfl
    have hback : { u with inQueue := [] } = s := by rw [hu, ← hq]
    have hstep := (step_of_fetch_ok hsu hfu).trans (exec_inp_of_head hdu hqu)
    rw [hback] at hstep
    exact ⟨dst.word, _, (fetch_inp_iff.1 hf).2.2, hstep, afterStore_setCell_advance v 2 hd.2⟩
  case close =>
    obtain ⟨hs, ⟨dst, hf, hd⟩, hq, -⟩ := inWait_iff.1 hw
    obtain ⟨-, hu⟩ := hostClose_eq_ok.1 hu
    have hsu : u.status = .running := by rw [hu]; exact hs
    have hfu : u.fetch = .ok (.inp dst) := by
      rw [hu, ← hf, ← fetch_supply s [] true, State.supply, Bool.or_true, List.append_nil]
    have hdu : u.writable dst := by rw [hu]; exact hd
    have hqu : u.inQueue = [] := by rw [hu]; exact hq
    have hcu : u.inClosed = true := by rw [hu]
    exact (step_of_fetch_ok hsu hfu).trans (exec_inp_of_exhausted hdu hqu hcu)

end Sys2Proof.Machine
end

section
/-! Memory as canonical data (log 3), and the words the host places for the next Step (log 1, log 7). -/

namespace Sys2Proof.Machine

/-! ### Canonical memories -/

theorem get_eq_unlisted {m : Memory} {a : Nat} (h : ∀ d ∈ m, d.1 ≠ a) : m.get a = Config.unlisted := by
  induction m with
  | nil => rfl
  | cons c m ih =>
    rw [Memory.get, if_neg (h c List.mem_cons_self)]
    exact ih fun d hd => h d (List.mem_cons_of_mem _ hd)

theorem lt_of_mem_of_wf {n : Nat} {m : Memory} (hwf : Memory.wf n m = true) {d : Nat × Int} (hd : d ∈ m) : d.1 < n := by
  induction m with
  | nil => cases hd
  | cons c m ih =>
    obtain ⟨hn, -, -, hm⟩ := (wf_cons n c m).1 hwf
    rcases List.mem_cons.1 hd with rfl | hd
    exacts [hn, ih hm hd]

@[simp] theorem get_cons_self (c : Nat × Int) (m : Memory) : Memory.get (c :: m) c.1 = c.2 := if_pos rfl

/-- Of two canonical memories that read the same, the second does not begin at a higher address than the first: the first
one's lowest cell would be unlisted there. -/
theorem head_le_of_get_eq {n : Nat} {c c' : Nat × Int} {m m' : Memory} (h : Memory.wf n (c :: m) = true)
    (h' : Memory.wf n (c' :: m') = true) (hget : ∀ a, Memory.get (c :: m) a = Memory.get (c' :: m') a) : c'.1 ≤ c.1 := by
  obtain ⟨-, hv, -, -⟩ := (wf_cons n c m).1 h
  obtain ⟨-, -, hlt', -⟩ := (wf_cons n c' m').1 h'
  by_contra hlt
  refine hv ?_
  rw [← get_cons_self c m, hget]
  refine get_eq_unlisted fun d hd => ?_
  rcases List.mem_cons.1 hd with rfl | hd
  · omega
  · have := hlt' d hd
    omega

/-- Canonical memories that read the same at every address are equal. -/
theorem eq_of_get_eq {n : Nat} {m m' : Memory} (h : Memory.wf n m = true) (h' : Memory.wf n m' = true)
    (hget : ∀ a, m.get a = m'.get a) : m = m' := by
  induction m generalizing m' with
  | nil =>
    cases m' with
    | nil => rfl
    | cons c' m' => exact absurd ((get_cons_self c' m').symm.trans (hget c'.1).symm) ((wf_cons n c' m').1 h').2.1
  | cons c m ih =>
    cases m' with
    | nil => exact absurd ((get_cons_self c m).symm.trans (hget c.1)) ((wf_cons n c m).1 h).2.1
    | cons c' m' =>
      have haddr : c.1 = c'.1 := le_antisymm (head_le_of_get_eq h' h fun a => (hget a).symm) (head_le_of_get_eq h h' hget)
      have hword : c.2 = c'.2 := by rw [← get_cons_self c m, hget, haddr, get_cons_self]
      obtain ⟨-, -, hlt, hm⟩ := (wf_cons n c m).1 h
      obtain ⟨-, -, hlt', hm'⟩ := (wf_cons n c' m').1 h'
      have htail : ∀ a, Memory.get m a = Memory.get m' a := fun a => by
        by_cases ha : c.1 = a
        · have hno : ∀ d ∈ m, d.1 ≠ a := fun d hd => by have := hlt d hd; omega
          have hno' : ∀ d ∈ m', d.1 ≠ a := fun d hd => by have := hlt' d hd; omega
          rw [get_eq_unlisted hno, get_eq_unlisted hno']
        · have hcell := hget a
          rwa [Memory.get, Memory.get, if_neg ha, if_neg (haddr ▸ ha)] at hcell
      rw [Prod.ext haddr hword, ih hm hm' htail]

/-- Settles O42: at an address of `n` or more neither memory lists a cell. -/
theorem canonicalMemoriesAreEqual : Obligations.CanonicalMemoriesAreEqual := by
  intro n m m' h h' hget
  refine eq_of_get_eq h h' fun a => ?_
  by_cases ha : a < n
  · exact hget a ha
  · rw [get_eq_unlisted fun d hd => by have := lt_of_mem_of_wf h hd; omega,
      get_eq_unlisted fun d hd => by have := lt_of_mem_of_wf h' hd; omega]

/-! ### Placed words -/

theorem get_setWords_of_lt {m : Memory} {a b : Nat} (ws : List Int) (hb : b < a) :
    (m.setWords a ws).get b = m.get b := by
  induction ws generalizing m a with
  | nil => rfl
  | cons w ws ih =>
    rw [Memory.setWords, ih (by omega), get_set_of_ne _ _ (by omega)]

theorem get_setWords (m : Memory) (a k : Nat) (ws : List Int) (hk : k < ws.length) :
    (m.setWords a ws).get (a + k) = ws[k] := by
  induction ws generalizing m a k with
  | nil => cases hk
  | cons w ws ih =>
    cases k with
    | zero => exact (get_setWords_of_lt ws (Nat.lt_succ_self a)).trans (get_set_self m a w)
    | succ k =>
      have e : a + (k + 1) = a + 1 + k := by omega
      rw [Memory.setWords, e]
      exact ih (m.set a w) (a + 1) k (Nat.lt_of_succ_lt_succ hk)

/-- Word `k` of a list that stands at `a` is what address `a + k` reads as. -/
theorem holdsAt_iff {s : State} {a : Int} {ws : List Int} :
    s.holdsAt a ws ↔ ∀ k : Nat, ∀ hk : k < ws.length, s.memRead (a + k) = .ok ws[k] := by
  induction ws generalizing a with
  | nil => simp [State.holdsAt]
  | cons w ws ih =>
    rw [State.holdsAt, ih]
    constructor
    · rintro ⟨h0, h⟩ k hk
      cases k with
      | zero => simpa using h0
      | succ k =>
        have e : a + ((k + 1 : Nat) : Int) = a + 1 + (k : Int) := by push_cast; ring
        rw [e]
        exact h k (by simpa using hk)
    · intro h
      have h0 := h 0 (Nat.succ_pos _)
      rw [Nat.cast_zero, add_zero] at h0
      refine ⟨h0, fun k hk => ?_⟩
      have e : a + 1 + (k : Int) = a + ((k + 1 : Nat) : Int) := by push_cast; ring
      rw [e]
      exact h (k + 1) (by simpa using hk)

/-- Words placed for the next Step stand where it fetches. -/
theorem withWords_holdsAt (s : State) (ws : List Int) : (s.withWords ws).holdsAt (s.withWords ws).ip ws := by
  rw [holdsAt_iff]
  intro k hk
  have haddr : (s.withWords ws).ip + (k : Int) = ((s.ip.toNat + k : Nat) : Int) := by simp [State.withWords]
  have hlen : (s.withWords ws).N = max s.N (s.ip.toNat + ws.length) := rfl
  have hin : (s.withWords ws).inBounds ((s.ip.toNat + k : Nat) : Int) := by
    simp only [State.inBounds, hlen]
    omega
  rw [haddr, memRead_eq_ok]
  refine ⟨hin, ?_⟩
  simp only [State.cell, Int.toNat_natCast]
  exact get_setWords s.mem s.ip.toNat k ws hk

/-- Settles O53: the placed words decode to the instruction that the table's word stands for. -/
theorem placedWordRunsNext : Obligations.PlacedWordRunsNext := by
  intro s nbits w i h
  unfold decodeTableWord at h
  split at h
  · rename_i j rest hd
    obtain rfl := Option.some.inj h
    exact stepRunsDecodedInstruction _ _ rest j rfl (withWords_holdsAt s _) hd
  · cases h

end Sys2Proof.Machine
end

section
/-! The host's side: the assembler's lines (30_encoding.md R53), Reset, ReadBack, Run, the patch and the search
(70_reset_and_hazards.md R87 to R98). -/

namespace Sys2Proof.Machine

/-! ### One line of assembler text -/

/-- The operand that writes a parameter: `[a]` or `#v` (R53). -/
def operandOf (p : Param) : AsmOperand :=
  match p.mode with
  | .position => AsmOperand.pos (.num p.word)
  | .immediate => AsmOperand.imm (.num p.word)

theorem resolve_operandOf (labels : List (String × Nat)) (p : Param) : (operandOf p).resolve labels = .ok p := by
  obtain ⟨m, w⟩ := p
  cases m <;> rfl

theorem mapM_resolve_operandOf (labels : List (String × Nat)) (ps : List Param) :
    (ps.map operandOf).mapM (AsmOperand.resolve labels) = .ok ps := by
  induction ps with
  | nil => rfl
  | cons p ps ih => simp [resolve_operandOf, ih]

/-- A line written for a well-formed instruction emits the instruction's words. -/
theorem emit_instr {i : Instr} (labels : List (String × Nat)) (hwf : i.wellFormed = true) :
    AsmLine.emit labels (.instr i.opcode (i.params.map operandOf)) = .ok (encode i) := by
  have hlen : ¬ (i.params.map operandOf).length ≠ i.opcode.arity := by simp [params_length]
  have hfits : (i.params.zip i.opcode.roles).all (fun pr => pr.1.fits pr.2) = true := hwf
  simp only [AsmLine.emit, if_neg hlen, mapM_resolve_operandOf, except_ok_bind, if_pos hfits]
  rfl

theorem assemble_singleton {l : AsmLine} {ws : List Int} (hlabels : asmLabels 0 [l] = .ok [])
    (h : AsmLine.emit [] l = .ok ws) : assemble [l] = .ok ws := by
  simp [assemble, hlabels, h]

/-- Settles O10: a line of one instruction defines no label and emits the instruction's words. -/
theorem assemblerEmitsEncoding : Obligations.AssemblerEmitsEncoding := fun _ hwf =>
  assemble_singleton rfl (emit_instr [] hwf)

/-! ### Reset and ReadBack -/

/-- Settles O48: the fields are Reset's arguments, and cell `k` is the image's word `k`. -/
theorem resetSetsEveryField : Obligations.ResetSetsEveryField := by
  rintro image inInit c s rfl
  refine ⟨rfl, fun k hk => ?_, rfl, rfl, rfl, rfl, rfl, rfl⟩
  have hin : (State.resetWith image inInit c).inBounds (k : Int) := by
    simp only [State.inBounds, resetWith_N]
    omega
  rw [memRead_eq_ok, resetWith_cell, List.getD_eq_getElem _ _ hk]
  exact ⟨hin, rfl⟩

theorem readBack_of_running {s : State} (a : Int) (h : s.status = .running) : s.readBack a = .error .stillRunning :=
  if_pos h

theorem readBack_of_ended {s : State} (a : Int) (h : s.ended) :
    s.readBack a = if s.inBounds a then .ok (s.cell a) else .error .addressOutOfMemory := if_neg h

/-- Settles O49: `readBack` tests the status and then the address. -/
theorem readBackOnlyWhenEnded : Obligations.ReadBackOnlyWhenEnded := by
  intro s a
  refine ⟨readBack_of_running a, fun he hin => ?_, fun he w => ?_⟩
  · rw [readBack_of_ended a he, if_neg hin]
  · rw [readBack_of_ended a he, memRead_eq_ok]
    by_cases hin : s.inBounds a <;> simp [hin]

/-! ### Run -/

theorem run_of_ended (fuel : Nat) {s : State} (h : s.ended) : run fuel s = .ended s := by
  cases fuel with
  | zero => exact if_neg h
  | succ fuel => exact if_pos h

theorem run_succ_of_running {fuel : Nat} {s : State} (hs : s.status = .running) :
    run (fuel + 1) s = if s.inWait then .waiting s else run fuel s.stepNext := if_neg (not_not.2 hs)

/-- A Run that ends a running state has taken a Step that did not hold, and has ended from there. -/
theorem run_eq_ended_of_running {fuel : Nat} {s t : State} (hs : s.status = .running) (h : run fuel s = .ended t) :
    ∃ n, fuel = n + 1 ∧ s.inWait = false ∧ run n s.stepNext = .ended t := by
  cases fuel with
  | zero => simp [run, hs] at h
  | succ n =>
    rw [run_succ_of_running hs] at h
    cases hw : s.inWait with
    | true => simp [hw] at h
    | false => exact ⟨n, rfl, rfl, by simpa [hw] using h⟩

/-- Settles O50, by induction on the fuel. -/
theorem runStepsToTheEnd : Obligations.RunStepsToTheEnd := by
  intro fuel
  induction fuel with
  | zero =>
    intro s t h
    by_cases hs : s.status = .running
    · obtain ⟨n, hn, -⟩ := run_eq_ended_of_running hs h
      cases hn
    · obtain rfl := RunResult.ended.inj ((run_of_ended 0 hs).symm.trans h)
      exact ⟨hs, fun more => run_of_ended _ hs, 0, le_refl 0, rfl⟩
  | succ fuel ih =>
    intro s t h
    by_cases hs : s.status = .running
    · obtain ⟨n, hn, hw, hrest⟩ := run_eq_ended_of_running hs h
      obtain rfl := Nat.succ.inj hn
      obtain ⟨he, hmore, k, hk, hsteps⟩ := ih s.stepNext t hrest
      refine ⟨he, fun more => ?_, k + 1, Nat.succ_le_succ hk, hsteps⟩
      rw [Nat.add_right_comm, run_succ_of_running hs, hw]
      exact hmore more
    · obtain rfl := RunResult.ended.inj ((run_of_ended (fuel + 1) hs).symm.trans h)
      exact ⟨hs, fun more => run_of_ended _ hs, 0, Nat.zero_le _, rfl⟩

/-! ### The patch -/

/-- Settles O51: the patch sets two indices of the list and nothing else. -/
theorem patchChangesNounAndVerb : Obligations.PatchChangesNounAndVerb := by
  intro program noun verb
  refine ⟨fun h => if_pos h, fun h => ⟨_, if_neg (by omega), by simp, ?_, ?_, fun k h1 h2 => ?_⟩⟩
  · simp [Config.nounIndex, Config.verbIndex, show 1 < program.length by omega]
  · simp [Config.nounIndex, Config.verbIndex, show 2 < program.length by omega]
  · simp [Config.nounIndex, Config.verbIndex, h1.symm, h2.symm]

/-! ### The search -/

/-- The pair `p` comes before `q` in row-major order, noun outer and verb inner (R98). -/
def RowMajorBefore (p q : Nat × Nat) : Prop := p.1 < q.1 ∨ p.1 = q.1 ∧ p.2 < q.2

theorem mem_candidatePairs {bound : Nat} {p : Nat × Nat} :
    p ∈ candidatePairs bound ↔ p.1 ≤ bound ∧ p.2 ≤ bound := by
  obtain ⟨n, v⟩ := p
  simp [candidatePairs]

theorem candidatePairs_sorted (bound : Nat) : (candidatePairs bound).Pairwise RowMajorBefore := by
  refine List.pairwise_flatMap.2 ⟨fun n _ => ?_, ?_⟩
  · exact List.pairwise_map.2 (List.pairwise_lt_range.imp fun h => .inr ⟨rfl, h⟩)
  · refine List.pairwise_lt_range.imp fun h p hp q hq => ?_
    obtain ⟨v, -, rfl⟩ := List.mem_map.1 hp
    obtain ⟨w, -, rfl⟩ := List.mem_map.1 hq
    exact .inl h

/-- What a search that finds a pair has done: the pairs before it in the list did not give the target, and it did. -/
theorem searchPairs_eq_found {replayOf : Nat → Nat → ReplayResult} {target : Int} {benign : Option FaultRecord → Bool}
    {ps : List (Nat × Nat)} {n v r : Nat} (h : searchPairs replayOf target benign ps = .found n v r) :
    ∃ before after, ps = before ++ (n, v) :: after ∧ r = 100 * n + v ∧ replayOf n v = .output target ∧
      ∀ p ∈ before, replayOf p.1 p.2 ≠ .output target := by
  induction ps with
  | nil => cases h
  | cons p ps ih =>
    have hpass : replayOf p.1 p.2 ≠ .output target → searchPairs replayOf target benign ps = .found n v r →
        ∃ before after, p :: ps = before ++ (n, v) :: after ∧ r = 100 * n + v ∧ replayOf n v = .output target ∧
          ∀ q ∈ before, replayOf q.1 q.2 ≠ .output target := by
      intro hp hrest
      obtain ⟨before, after, rfl, hr, hout, hbefore⟩ := ih hrest
      exact ⟨p :: before, after, rfl, hr, hout, List.forall_mem_cons.2 ⟨hp, hbefore⟩⟩
    rw [searchPairs] at h
    cases hp : replayOf p.1 p.2 with
    | output w =>
      rw [hp] at h
      by_cases hw : w = target
      · subst hw
        simp only [if_pos] at h
        cases h
        exact ⟨[], ps, rfl, rfl, hp, nofun⟩
      · simp only [if_neg hw] at h
        exact hpass (by rw [hp]; simpa using hw) h
    | faulted record =>
      rw [hp] at h
      cases hb : benign record with
      | true =>
        simp only [hb, if_true] at h
        exact hpass (by rw [hp]; nofun) h
      | false => simp [hb] at h
    | waiting => rw [hp] at h; cases h
    | outOfFuel => rw [hp] at h; cases h
    | hostError e => rw [hp] at h; cases h

/-- Settles O52: the candidates are listed in row-major order, so a pair before the one found stands before it in the
list. -/
theorem searchFindsFirstMatch : Obligations.SearchFindsFirstMatch := by
  intro fuel program inInit c bound target benign n v r h
  obtain ⟨before, after, hps, hr, hout, hbefore⟩ := searchPairs_eq_found h
  have hmem : (n, v) ∈ candidatePairs bound := by rw [hps]; simp
  obtain ⟨hn, hv⟩ := mem_candidatePairs.1 hmem
  refine ⟨hn, hv, hr, hout, fun n' v' hv' hlt => ?_⟩
  have hmem' : (n', v') ∈ before ++ (n, v) :: after := by
    rw [← hps, mem_candidatePairs]
    exact ⟨by omega, hv'⟩
  have hafter : ∀ q ∈ after, RowMajorBefore (n, v) q := by
    have hsorted := candidatePairs_sorted bound
    rw [hps] at hsorted
    exact (List.pairwise_cons.1 (List.pairwise_append.1 hsorted).2.1).1
  rcases List.mem_append.1 hmem' with hb | hb
  · exact hbefore _ hb
  · rcases List.mem_cons.1 hb with heq | ha
    · cases heq
      omega
    · have := hafter _ ha
      simp only [RowMajorBefore] at this
      omega

end Sys2Proof.Machine
end
